-- ==== Sys2Proof/Word.lean ====
section
/-! DEFINITION. The two widths of the block: a byte (8 bits) and a command word, CRC or view (16 bits), both unsigned
(00_scope.md R7). Every field and slice of them is taken in Decode.lean. -/

namespace Sys2Proof

/-- A byte: 8 bits, unsigned (00_scope.md R7). -/
abbrev Byte := BitVec 8

/-- A 16-bit value: a command word (30_encoding.md R70), the CRC register (10_state.md R24) or a view (R34, R35). -/
abbrev Word := BitVec 16

end Sys2Proof
end

