-- ==== Sys2Proof/Config.lean ====
section
/-! DEFINITION. The block's parameters (00_scope.md R6): the fixed values, and the two the spec leaves OPEN and no rule
reads, as constants without a body. -/

namespace Sys2Proof.Config

/-- CRC polynomial, reflected form (00_scope.md R6, 42_crc16.md R102). -/
abbrev crcPoly : Word := 0xA001#16

/-- CRC initial value (00_scope.md R6, 42_crc16.md R102). The final XOR is 0x0000, so R101 has none. -/
abbrev crcInit : Word := 0x0000#16

/-- The most non-zero bytes COBS puts under one length byte (00_scope.md R6). -/
abbrev maxRun : Nat := 254

/-- The length byte of a saturated run (44_cobs.md R161, R168). -/
abbrev saturatedLength : Byte := 0xFF#8

/-- The frame terminator (00_scope.md R6). -/
abbrev terminator : Byte := 0x00#8

/-- How the block's parts map onto a platform bus: register addresses, bus width, handshake (20_memory.md R50). -/
structure BusBinding where
  width : Nat
  commandAddress : Nat
  outputAddress : Nat
  statusAddress : Nat
  crcAddress : Nat
  readyValid : Bool
  deriving DecidableEq, Repr, Inhabited

/-- The OPEN parameter `BUS_BINDING` (20_memory.md R50). No rule depends on it and no definition here reads it. -/
opaque busBinding : BusBinding

/-- The OPEN parameter `CMD_LATENCY` (70_reset_and_hazards.md R231): how long a command word takes. No rule reads it. -/
opaque cmdLatency : Word → Nat

end Sys2Proof.Config
end

