-- ==== Sys2Proof/Syntax.lean ====
section
/-! DEFINITION. The instructions: one constructor per row of spec/opcode_table.json, and the form an encoded one takes
on its way from the host. -/

namespace Sys2Proof

/-- The rows of spec/opcode_table.json. The first five are the block's commands (30_encoding.md R71), each with its DATA
byte as it stands in the command word; the last two are the host's messages (41_messages.md R91, R92). -/
inductive Instr where
  /-- NOP, DATA ignored (43_framer_commands.md R121). -/
  | nop (data : Byte)
  /-- START, DATA the flag field of 30_encoding.md R72 (43_framer_commands.md R122). -/
  | start (data : Byte)
  /-- BYTE, DATA the message byte (43_framer_commands.md R123). -/
  | byte (data : Byte)
  /-- END, DATA ignored (43_framer_commands.md R124). -/
  | endFrame (data : Byte)
  /-- SRESET, DATA ignored (43_framer_commands.md R125). -/
  | sreset (data : Byte)
  /-- The Init message (41_messages.md R91). -/
  | initMessage (numPixels pin : Byte)
  /-- The SetLeds message; the number of colour bytes is not checked (41_messages.md R92, R93). -/
  | setLedsMessage (offset numPixels : Byte) (colors : List Byte)
  deriving DecidableEq, Repr

/-- An instruction as it is encoded: a row of format CMD16 is one 16-bit command word (30_encoding.md R70), a row of
format MSG is a sequence of message bytes (41_messages.md R90). -/
inductive Image where
  | word (w : Word)
  | message (m : List Byte)
  deriving DecidableEq, Repr

end Sys2Proof
end

