-- ==== Sys2Proof/WellFormed.lean ====
section
/-! DEFINITION. Which instruction terms stand for an encoding of the table. -/

namespace Sys2Proof

/-- START's reserved bits 7:2 must be 0 (30_encoding.md R72); every other operand may take every value (R73, R74), and a
SetLeds colour list may have any length (41_messages.md R93). -/
def Instr.wellFormed : Instr → Bool
  | .nop _ => true
  | .start data => data.extractLsb' 2 6 == 0#6
  | .byte _ => true
  | .endFrame _ => true
  | .sreset _ => true
  | .initMessage _ _ => true
  | .setLedsMessage _ _ _ => true

end Sys2Proof
end

