-- ==== Sys2Proof/Decode.lean ====
section
/-! DEFINITION. The fields of a word, the decoder of command words and of messages (total, rejecting by name), and the
encoder written from the same tables. -/

namespace Sys2Proof

/-- Bits 15:8 of a word: a command's OPC (30_encoding.md R70), the CRC's high byte (42_crc16.md R104). -/
def hiByte (w : Word) : Byte := w.extractLsb' 8 8

/-- Bits 7:0 of a word: a command's DATA (30_encoding.md R70), the CRC's low byte (42_crc16.md R104). -/
def loByte (w : Word) : Byte := w.extractLsb' 0 8

/-- The word with the given bits 15:8 and 7:0. -/
def joinBytes (hi lo : Byte) : Word := hi ++ lo

/-- START's DATA bits 7:2, reserved (30_encoding.md R72). -/
def startReserved (data : Byte) : BitVec 6 := data.extractLsb' 2 6

/-- Why the decoder does not read an instruction of the table. -/
inductive Reject where
  /-- A command word with OPC 0x05 to 0xFF (30_encoding.md R75): the step raises ILLEGAL_OPCODE. -/
  | illegalOpcode (opc : Byte)
  /-- A START word with a reserved bit set (30_encoding.md R76): the step raises RESERVED_FIELD. -/
  | reservedField (data : Byte)
  /-- A message with no byte, so no code (41_messages.md R90): fed as given. -/
  | emptyMessage
  /-- A message whose code the source does not assign (41_messages.md R95): fed as given. -/
  | unassignedCode (code : Byte)
  /-- A message with an assigned code whose length is not its variant's (41_messages.md R91, R92): fed as given. -/
  | wrongLength (code : Byte)
  deriving DecidableEq, Repr

/-- The opcode map of 30_encoding.md R71, with the classes of R77. -/
def decodeWord (w : Word) : Except Reject Instr :=
  if hiByte w = 0x00#8 then .ok (.nop (loByte w))
  else if hiByte w = 0x01#8 then
    if startReserved (loByte w) = 0#6 then .ok (.start (loByte w)) else .error (.reservedField (loByte w))
  else if hiByte w = 0x02#8 then .ok (.byte (loByte w))
  else if hiByte w = 0x03#8 then .ok (.endFrame (loByte w))
  else if hiByte w = 0x04#8 then .ok (.sreset (loByte w))
  else .error (.illegalOpcode (hiByte w))

/-- The message layouts of 41_messages.md R91 (code 0, always 3 bytes) and R92 (code 1, 3 bytes and the colours). -/
def decodeMessage : List Byte → Except Reject Instr
  | [] => .error .emptyMessage
  | code :: payload =>
    if code = 0x00#8 then
      match payload with
      | [n, p] => .ok (.initMessage n p)
      | _ => .error (.wrongLength code)
    else if code = 0x01#8 then
      match payload with
      | o :: n :: colors => .ok (.setLedsMessage o n colors)
      | _ => .error (.wrongLength code)
    else .error (.unassignedCode code)

/-- The decoder, total on any command word and any message bytes. -/
def decode : Image → Except Reject Instr
  | .word w => decodeWord w
  | .message m => decodeMessage m

/-- `InitMsg` of 41_messages.md R91. -/
def initMsgBytes (numPixels pin : Byte) : List Byte := [0x00#8, numPixels, pin]

/-- `SetLedsMsg` of 41_messages.md R92. -/
def setLedsMsgBytes (offset numPixels : Byte) (colors : List Byte) : List Byte :=
  [0x01#8, offset, numPixels] ++ colors

/-- The encoding of an instruction (30_encoding.md R71; 41_messages.md R91, R92). -/
def encode : Instr → Image
  | .nop data => .word (joinBytes 0x00#8 data)
  | .start data => .word (joinBytes 0x01#8 data)
  | .byte data => .word (joinBytes 0x02#8 data)
  | .endFrame data => .word (joinBytes 0x03#8 data)
  | .sreset data => .word (joinBytes 0x04#8 data)
  | .initMessage numPixels pin => .message (initMsgBytes numPixels pin)
  | .setLedsMessage offset numPixels colors => .message (setLedsMsgBytes offset numPixels colors)

/-- The first `k` bytes of a number whose bit 0 is the least significant bit of the first byte. -/
def bytesOfNat : Nat → Nat → List Byte
  | 0, _ => []
  | k + 1, w => BitVec.ofNat 8 w :: bytesOfNat k (w / 256)

/-- The encoded instruction that a table word stands for. A row of 16 bits is a command word; any other row is a message,
whose bytes above `nbits` are 0 up to the three bytes both variants have (notes/assumptions/10.md). -/
def tableImage (nbits w : Nat) : Image :=
  if nbits = 16 then .word (BitVec.ofNat 16 w)
  else .message (bytesOfNat (max 3 ((nbits + 7) / 8)) (w % 2 ^ nbits))

/-- The instruction the decoder reads from a table word, none where it rejects it. -/
def decodeTableWord (nbits w : Nat) : Option Instr :=
  match decode (tableImage nbits w) with
  | .ok i => some i
  | .error _ => none

end Sys2Proof
end

