-- ==== Sys2Proof/Machine/Crc.lean ====
section
/-! DEFINITION. The CRC-16/ARC function of 42_crc16.md. -/

namespace Sys2Proof.Machine

/-- `zext_16` (00_scope.md R7). -/
def zext16 (b : Byte) : Word := b.setWidth 16

/-- One of the eight iterations of `CrcStep` (42_crc16.md R100): shift right, and XOR the polynomial if bit 0 was 1. -/
def crcBit (c : Word) : Word :=
  if c.getLsbD 0 then (c >>> 1) ^^^ Config.crcPoly else c >>> 1

/-- `k` iterations of `crcBit`. -/
def crcBits : Nat → Word → Word
  | 0, c => c
  | k + 1, c => crcBits k (crcBit c)

/-- `CrcStep(c, b)` (42_crc16.md R100). -/
def crcStep (c : Word) (b : Byte) : Word := crcBits 8 (c ^^^ zext16 b)

/-- `Crc(m)` (42_crc16.md R101). -/
def crc (m : List Byte) : Word := m.foldl crcStep Config.crcInit

/-- The two checksum bytes of a CRC value, high byte first (42_crc16.md R104, 20_memory.md R52). -/
def checksumBytes (c : Word) : List Byte := [hiByte c, loByte c]

/-- `Packet(m)` (42_crc16.md R104). -/
def packet (m : List Byte) : List Byte := m ++ checksumBytes (crc m)

end Sys2Proof.Machine
end

