-- ==== Sys2Proof/Machine/State.lean ====
section
/-! DEFINITION. The machine's state as plain data: the tuple of 10_state.md R21, the output stream of R29, and the host's
side of the ports (20_memory.md R50, R64). The reasons to stop, of which the spec gives none, and the state after reset. -/

namespace Sys2Proof.Machine

/-- MODE (10_state.md R22): IDLE = 0, FRAME = 1. -/
inductive Mode where
  | idle
  | frame
  deriving DecidableEq, Repr

/-- The cause codes 0 to 3 of CAUSE, in the order of 60_exceptions.md R191. -/
inductive Cause where
  | noError
  | illegalOpcode
  | reservedField
  | sequence
  deriving DecidableEq, Repr

/-- What the host may do to the block at its ports (20_memory.md R50, R64), one action a step (R59). -/
inductive HostAction where
  /-- Issue a command word, or feed a message through BYTE commands (41_messages.md). -/
  | issue (image : Image)
  /-- `ReadStatus()`. -/
  | readStatus
  /-- `ReadCrc()`. -/
  | readCrc
  /-- Assert the hardware reset input (70_reset_and_hazards.md R220). -/
  | hardReset
  deriving DecidableEq, Repr

/-- A value that a view read returned to the host (10_state.md R36). -/
inductive ViewRead where
  | status (value : Word)
  | crc (value : Word)
  deriving DecidableEq, Repr

/-- The machine. The first eight fields are the tuple of 10_state.md R21, "and nothing else"; `out` is R29's output
stream; `pending` and `reads` are the model's own, the host's side of the ports (notes/assumptions/1.md, 4.md). -/
@[ext]
structure State where
  /-- MODE (R22). -/
  mode : Mode
  /-- CRC_EN (R23). -/
  crcEn : Bool
  /-- TERM_EN (R23). -/
  termEn : Bool
  /-- CRC (R24). -/
  crc : Word
  /-- RUN (R25), in push order. -/
  run : List Byte
  /-- LAST_ZERO (R26). -/
  lastZero : Bool
  /-- ERR (R27). -/
  err : Bool
  /-- CAUSE (R28). -/
  cause : Cause
  /-- OUT (R29), in transmission order. -/
  out : List Byte
  /-- The host's actions still to come, in the one order of 20_memory.md R59. -/
  pending : List HostAction
  /-- The values the host's view reads have returned, oldest first. -/
  reads : List ViewRead
  deriving DecidableEq, Repr

/-- The spec stops the machine nowhere: an error is recorded and the block goes on (60_exceptions.md R190, R200), and no
fault exists. No meaning raises one, which is safe. -/
inductive Fault : Type
  deriving DecidableEq, Repr

/-- The reasons not to give an instruction a meaning. -/
inductive Refusal where
  /-- Raised only by an arm of exec without a meaning; no arm is one. Safe. -/
  | notModelled (mnemonic : String)
  deriving DecidableEq, Repr

/-- The machine right after reset: the tuple at the values of 10_state.md R21, OUT empty at the start of the run (R29),
and no action of the host yet (notes/assumptions/1.md, 4.md, 9.md). -/
def State.reset : State where
  mode := .idle
  crcEn := false
  termEn := false
  crc := 0x0000#16
  run := []
  lastZero := false
  err := false
  cause := .noError
  out := []
  pending := []
  reads := []

end Sys2Proof.Machine
end

