-- ==== Sys2Proof/Machine/Flags.lean ====
section
/-! DEFINITION. The two read-only views (10_state.md R34, R35): every flag the host can see is a field of STATUS. -/

namespace Sys2Proof.Machine

/-- MODE as its bit: IDLE = 0, FRAME = 1 (10_state.md R21). -/
def modeBit : Mode → Bool
  | .idle => false
  | .frame => true

/-- CAUSE as its code (60_exceptions.md R191). -/
def causeCode : Cause → BitVec 2
  | .noError => 0#2
  | .illegalOpcode => 1#2
  | .reservedField => 2#2
  | .sequence => 3#2

/-- A bit as a 16-bit value. -/
def bit16 (b : Bool) : Word := (BitVec.ofBool b).setWidth 16

/-- STATUS, by the formula of 10_state.md R34; bit 7 is in no term, so it reads 0. -/
def statusView (s : State) : Word :=
  bit16 (modeBit s.mode) ||| bit16 s.err <<< 1 ||| (causeCode s.cause).setWidth 16 <<< 2 ||| bit16 s.crcEn <<< 4
    ||| bit16 s.termEn <<< 5 ||| bit16 s.lastZero <<< 6 ||| BitVec.ofNat 16 s.run.length <<< 8

/-- The CRC view (10_state.md R35). -/
def crcView (s : State) : Word := s.crc

end Sys2Proof.Machine
end

