-- ==== Sys2Proof/Machine/Operands.lean ====
section
/-! DEFINITION. The operand forms (30_encoding.md R72 to R74) and the command words the host builds from them. -/

namespace Sys2Proof.Machine

/-- START's flag C, DATA bit 0 (30_encoding.md R72). -/
def startCrcFlag (data : Byte) : Bool := data.getLsbD 0

/-- START's flag T, DATA bit 1 (30_encoding.md R72). -/
def startTermFlag (data : Byte) : Bool := data.getLsbD 1

/-- START's reserved bits 7:2 are not all 0 (30_encoding.md R72). -/
def startIsReserved (data : Byte) : Bool := startReserved data != 0#6

/-- START's DATA for flags C and T: `T<<1 | C` (43_framer_commands.md R128). -/
def startData (crcEn termEn : Bool) : Byte :=
  (BitVec.ofBool termEn).setWidth 8 <<< 1 ||| (BitVec.ofBool crcEn).setWidth 8

/-- The word of `START` with flags C and T (30_encoding.md R72). -/
def startWord (crcEn termEn : Bool) : Word := joinBytes 0x01#8 (startData crcEn termEn)

/-- The word of `BYTE b` (30_encoding.md R73). -/
def byteWord (b : Byte) : Word := joinBytes 0x02#8 b

/-- The word of `END`, assembled with DATA = 0x00 (30_encoding.md R79). -/
def endWord : Word := joinBytes 0x03#8 0x00#8

/-- The word of `NOP`, assembled with DATA = 0x00 (30_encoding.md R79). -/
def nopWord : Word := joinBytes 0x00#8 0x00#8

/-- The word of `SRESET`, assembled with DATA = 0x00 (30_encoding.md R79). -/
def sresetWord : Word := joinBytes 0x04#8 0x00#8

/-- The host action that issues a command word. -/
def command (w : Word) : HostAction := .issue (.word w)

/-- The BYTE commands that carry message bytes, in order (41_messages.md, head; 43_framer_commands.md R123). -/
def byteCommands (m : List Byte) : List HostAction := m.map fun b => command (byteWord b)

end Sys2Proof.Machine
end

