-- ==== Sys2Proof/Machine/Ops.lean ====
section
/-! DEFINITION. The named operations over the state: the primitives of 00_scope.md R10 and 20_memory.md R64, recording an
error (the block's whole exception entry; there is no return, 60_exceptions.md R198, R199), reset, and the streaming COBS
stage (44_cobs.md R168, R169). -/

namespace Sys2Proof.Machine

/-- `Emit(x)`: append to OUT (00_scope.md R10). -/
def State.emit (x : List Byte) (s : State) : State := { s with out := s.out ++ x }

/-- Write CRC. -/
def State.setCrc (c : Word) (s : State) : State := { s with crc := c }

/-- Write RUN and LAST_ZERO, the COBS stage's two elements. -/
def State.setRun (r : List Byte) (lastZero : Bool) (s : State) : State := { s with run := r, lastZero := lastZero }

/-- Write MODE. -/
def State.setMode (m : Mode) (s : State) : State := { s with mode := m }

/-- Write the host's actions to come. -/
def State.setPending (actions : List HostAction) (s : State) : State := { s with pending := actions }

/-- Give the host the value of a view read. -/
def State.recordRead (r : ViewRead) (s : State) : State := { s with reads := s.reads ++ [r] }

/-- What START writes when it succeeds (43_framer_commands.md R122). -/
def State.openFrame (crcEn termEn : Bool) (s : State) : State :=
  { s with
    mode := .frame
    crcEn := crcEn
    termEn := termEn
    crc := Config.crcInit
    run := []
    lastZero := false }

/-- Set every element of the tuple to its reset value (10_state.md R21); OUT is kept (R29, 70_reset_and_hazards.md R221). -/
def State.clearBlock (s : State) : State :=
  { s with
    mode := .idle
    crcEn := false
    termEn := false
    crc := 0x0000#16
    run := []
    lastZero := false
    err := false
    cause := .noError }

/-- `raise Error(c)` (60_exceptions.md R192): the first cause since reset is kept, and nothing else changes. -/
def raiseError (c : Cause) (s : State) : State :=
  if s.err then s else { s with err := true, cause := c }

/-- The length byte of a run, `len(RUN) + 1` (44_cobs.md R168). It is exact for the runs the rules allow, of at most 254
bytes; the model wraps it for a longer one, which no run reaches (notes/assumptions/5.md). -/
def lengthByte (r : List Byte) : Byte := BitVec.ofNat 8 (r.length + 1)

/-- `CobsPush(b)` (44_cobs.md R168). -/
def cobsPush (b : Byte) (s : State) : State :=
  if b = 0x00#8 then
    (s.emit (lengthByte s.run :: s.run)).setRun [] true
  else if (s.run ++ [b]).length = Config.maxRun then
    (s.emit (Config.saturatedLength :: (s.run ++ [b]))).setRun [] false
  else
    s.setRun (s.run ++ [b]) false

/-- `CobsFinish()` (44_cobs.md R169). -/
def cobsFinish (s : State) : State :=
  if s.run.length > 0 then
    (s.emit (lengthByte s.run :: s.run)).setRun [] false
  else if s.lastZero then
    (s.emit [0x01#8]).setRun s.run false
  else
    s.setRun s.run false

/-- The checksum pushes of END (43_framer_commands.md R124): high byte first, if CRC_EN is 1. -/
def pushChecksum (s : State) : State :=
  if s.crcEn then cobsPush (loByte s.crc) (cobsPush (hiByte s.crc) s) else s

/-- The terminator of END (43_framer_commands.md R124), if TERM_EN is 1. -/
def emitTerminator (s : State) : State :=
  if s.termEn then s.emit [Config.terminator] else s

/-- The host feeds a message: its bytes stand on the port as BYTE commands, before every later action of the host
(41_messages.md, head; notes/assumptions/2.md). The block's state and OUT do not change. -/
def feedMessage (m : List Byte) (s : State) : State := s.setPending (byteCommands m ++ s.pending)

/-- `Take()` (20_memory.md R64): the host's next action, and the state without it; none when nothing is pending. -/
def take (s : State) : Option (HostAction × State) :=
  match s.pending with
  | [] => none
  | a :: rest => some (a, s.setPending rest)

/-- `ReadStatus()` (20_memory.md R64): the host gets the STATUS view of this step boundary (10_state.md R36). -/
def readStatus (s : State) : State := s.recordRead (.status (statusView s))

/-- `ReadCrc()` (20_memory.md R64): the host gets the CRC view of this step boundary (10_state.md R36). -/
def readCrc (s : State) : State := s.recordRead (.crc (crcView s))

/-- The hardware reset input (70_reset_and_hazards.md R220, R221): OUT and the words still on the port are kept. -/
def hardReset (s : State) : State := s.clearBlock

/-- What a step does with an image the decoder rejects. A command word is an erroneous command (30_encoding.md R75, R76);
a message of no known variant is fed byte for byte like any other (41_messages.md R90, R95). -/
def onReject (r : Reject) (im : Image) (s : State) : State :=
  match r, im with
  | .illegalOpcode _, _ => raiseError .illegalOpcode s
  | .reservedField _, _ => raiseError .reservedField s
  | .emptyMessage, .message m => feedMessage m s
  | .unassignedCode _, .message m => feedMessage m s
  | .wrongLength _, .message m => feedMessage m s
  | .emptyMessage, .word _ => s
  | .unassignedCode _, .word _ => s
  | .wrongLength _, .word _ => s

/-- A step with nothing pending changes nothing (10_state.md R20, 60_exceptions.md R203). -/
def idle (s : State) : State := s

end Sys2Proof.Machine
end

