-- ==== Sys2Proof/Machine/Framer.lean ====
section
/-! DEFINITION. The meanings of the five commands (43_framer_commands.md R121 to R125). -/

namespace Sys2Proof.Machine

/-- NOP (43_framer_commands.md R121). -/
def execNop (_data : Byte) (s : State) : Host.Outcome State Fault Refusal := .next s

/-- START (43_framer_commands.md R122): RESERVED_FIELD is checked before SEQUENCE (60_exceptions.md R194). -/
def execStart (data : Byte) (s : State) : Host.Outcome State Fault Refusal :=
  if startIsReserved data then .next (raiseError .reservedField s)
  else
    match s.mode with
    | .frame => .next (raiseError .sequence s)
    | .idle => .next (s.openFrame (startCrcFlag data) (startTermFlag data))

/-- BYTE (43_framer_commands.md R123): CRC is folded whatever CRC_EN holds (42_crc16.md R106). -/
def execByte (data : Byte) (s : State) : Host.Outcome State Fault Refusal :=
  match s.mode with
  | .idle => .next (raiseError .sequence s)
  | .frame => .next (cobsPush data (s.setCrc (crcStep s.crc data)))

/-- END (43_framer_commands.md R124). -/
def execEnd (_data : Byte) (s : State) : Host.Outcome State Fault Refusal :=
  match s.mode with
  | .idle => .next (raiseError .sequence s)
  | .frame => .next ((emitTerminator (cobsFinish (pushChecksum s))).setMode .idle)

/-- SRESET (43_framer_commands.md R125). -/
def execSreset (_data : Byte) (s : State) : Host.Outcome State Fault Refusal := .next s.clearBlock

end Sys2Proof.Machine
end

