-- ==== Sys2Proof/Machine/Messages.lean ====
section
/-! DEFINITION. The meanings of the two messages (41_messages.md R91, R92): host software that serialises the message and
feeds its bytes to the block. No flag is written and no error arises. -/

namespace Sys2Proof.Machine

/-- Init (41_messages.md R91). -/
def execInitMessage (numPixels pin : Byte) (s : State) : Host.Outcome State Fault Refusal :=
  .next (feedMessage (initMsgBytes numPixels pin) s)

/-- SetLeds (41_messages.md R92); the colour list is fed as given (R93). -/
def execSetLedsMessage (offset numPixels : Byte) (colors : List Byte) (s : State) : Host.Outcome State Fault Refusal :=
  .next (feedMessage (setLedsMsgBytes offset numPixels colors) s)

end Sys2Proof.Machine
end

