-- ==== Sys2Proof/Machine/Dispatch.lean ====
section
/-! DEFINITION. exec: one arm per constructor of Instr, each one direct call of its meaning (43_framer_commands.md R120). -/

namespace Sys2Proof.Machine

def exec (i : Instr) (s : State) : Host.Outcome State Fault Refusal :=
  match i with
  | .nop data => Sys2Proof.Machine.execNop data s
  | .start data => Sys2Proof.Machine.execStart data s
  | .byte data => Sys2Proof.Machine.execByte data s
  | .endFrame data => Sys2Proof.Machine.execEnd data s
  | .sreset data => Sys2Proof.Machine.execSreset data s
  | .initMessage numPixels pin => Sys2Proof.Machine.execInitMessage numPixels pin s
  | .setLedsMessage offset numPixels colors => Sys2Proof.Machine.execSetLedsMessage offset numPixels colors s

end Sys2Proof.Machine
end

