-- ==== Sys2Proof/Machine/Control.lean ====
section
/-! DEFINITION. What a step does with one action of the host (43_framer_commands.md R120, 20_memory.md R59). -/

namespace Sys2Proof.Machine

/-- Perform one action: decode and run an issued image, read a view, or reset. -/
def perform (a : HostAction) (s : State) : Host.Outcome State Fault Refusal :=
  match a with
  | .issue im =>
    match decode im with
    | .ok i => exec i s
    | .error r => .next (onReject r im s)
  | .readStatus => .next (readStatus s)
  | .readCrc => .next (readCrc s)
  | .hardReset => .next (hardReset s)

end Sys2Proof.Machine
end

