-- ==== Sys2Proof/Machine/Step.lean ====
section
/-! DEFINITION. The step: take the host's next action and perform it, whole (00_scope.md R11); and where an instruction
stands for the next step to run it. -/

namespace Sys2Proof.Machine

/-- One step. With nothing pending the block is idle (10_state.md R20). -/
def step (s : State) : Host.Outcome State Fault Refusal :=
  match take s with
  | none => .next (idle s)
  | some (a, s') => perform a s'

/-- The instruction of a table word as the host's next action, before every other (notes/assumptions/1.md, 10.md). -/
def State.withFetchWord (s : State) (nbits w : Nat) : State :=
  s.setPending (.issue (tableImage nbits w) :: s.pending)

end Sys2Proof.Machine
end

