-- ==== Sys2Proof/Machine/Assembler.lean ====
section
/-! DEFINITION. The assembler syntax and the pseudo-commands (30_encoding.md R79, R80): what the host's command words are
written from. No step reads it. What R79 leaves open of the text is notes/assumptions/12.md. -/

namespace Sys2Proof.Machine

/-- One line of assembly: a command (30_encoding.md R79) or a pseudo-command (R80). -/
inductive AsmLine where
  | nop
  | start (crcEn termEn : Bool)
  | byte (b : Byte)
  | endFrame
  | sreset
  | send (m : List Byte)
  | sync
  | crcOnly (m : List Byte)
  | init (numPixels pin : Byte)
  | setLeds (offset numPixels : Byte) (colors : List Byte)
  deriving DecidableEq, Repr

/-- START with flags C and T, the BYTE commands of a message, END. -/
def frameWords (crcEn termEn : Bool) (m : List Byte) : List Word :=
  startWord crcEn termEn :: (m.map byteWord ++ [endWord])

/-- The command words of a line (30_encoding.md R79, R80). -/
def assembleLine : AsmLine → List Word
  | .nop => [nopWord]
  | .start crcEn termEn => [startWord crcEn termEn]
  | .byte b => [byteWord b]
  | .endFrame => [endWord]
  | .sreset => [sresetWord]
  | .send m => frameWords true true m
  | .sync => frameWords false true []
  | .crcOnly m => frameWords false false m
  | .init numPixels pin => frameWords true true (initMsgBytes numPixels pin)
  | .setLeds offset numPixels colors => frameWords true true (setLedsMsgBytes offset numPixels colors)

/-- White space within a line. -/
def isBlank (c : Char) : Bool := c == ' ' || c == '\t' || c == '\r'

/-- A token without the blanks around it. -/
def trimBlanks (cs : List Char) : List Char := ((cs.dropWhile isBlank).reverse.dropWhile isBlank).reverse

/-- The pieces of a text between separators. -/
def splitAtChar (sep : Char) : List Char → List (List Char)
  | [] => [[]]
  | c :: cs =>
    match splitAtChar sep cs with
    | [] => [[c]]
    | piece :: pieces => if c = sep then [] :: piece :: pieces else (c :: piece) :: pieces

/-- The value of a digit in the given base. -/
def digitValue (base : Nat) (c : Char) : Option Nat :=
  let v := if '0' ≤ c ∧ c ≤ '9' then c.toNat - '0'.toNat
    else if 'a' ≤ c ∧ c ≤ 'f' then c.toNat - 'a'.toNat + 10
    else if 'A' ≤ c ∧ c ≤ 'F' then c.toNat - 'A'.toNat + 10
    else base
  if v < base then some v else none

/-- The number that digits write, read on from `acc`. -/
def parseDigits (base : Nat) : List Char → Nat → Option Nat
  | [], acc => some acc
  | c :: cs, acc =>
    match digitValue base c with
    | none => none
    | some v => parseDigits base cs (acc * base + v)

/-- A number in decimal or as `0x..` (30_encoding.md R79). -/
def parseNumber : List Char → Option Nat
  | [] => none
  | '0' :: 'x' :: c :: cs => parseDigits 16 (c :: cs) 0
  | c :: cs => parseDigits 10 (c :: cs) 0

/-- `imm8`: a number 0 to 255 (30_encoding.md R79). -/
def parseByte (cs : List Char) : Option Byte :=
  match parseNumber (trimBlanks cs) with
  | none => none
  | some n => if n ≤ 255 then some (BitVec.ofNat 8 n) else none

/-- Every piece as `imm8`, or nothing. -/
def parseAllBytes : List (List Char) → Option (List Byte)
  | [] => some []
  | p :: ps =>
    match parseByte p, parseAllBytes ps with
    | some b, some bs => some (b :: bs)
    | _, _ => none

/-- The bytes `b0, ..., bn-1` of a pseudo-command (30_encoding.md R80). DESIGN CHOICE, safe: each is read as R79's `imm8`,
with commas between them; R80 gives them no other form, and the quoted string and the bare hexadecimal bytes that
95_test_vectors.md P3 and P1 write there are not read (notes/assumptions/12.md). -/
def parseBytes (cs : List Char) : Option (List Byte) :=
  if trimBlanks cs = [] then some [] else parseAllBytes (splitAtChar ',' cs)

/-- START's `flags`: `0`, `CRC`, `TERM`, `CRC|TERM`, or a number 0 to 3 (30_encoding.md R79). -/
def parseFlags (cs : List Char) : Option AsmLine :=
  if trimBlanks cs = ['C', 'R', 'C'] then some (.start true false)
  else if trimBlanks cs = ['T', 'E', 'R', 'M'] then some (.start false true)
  else if trimBlanks cs = ['C', 'R', 'C', '|', 'T', 'E', 'R', 'M'] then some (.start true true)
  else
    match parseNumber (trimBlanks cs) with
    | some 0 => some (.start false false)
    | some 1 => some (.start true false)
    | some 2 => some (.start false true)
    | some 3 => some (.start true true)
    | _ => none

/-- A mnemonic and its operands (30_encoding.md R79, R80). -/
def parseStatement (mnemonic operands : List Char) : Option AsmLine :=
  if mnemonic = ['N', 'O', 'P'] then if trimBlanks operands = [] then some .nop else none
  else if mnemonic = ['S', 'T', 'A', 'R', 'T'] then parseFlags operands
  else if mnemonic = ['B', 'Y', 'T', 'E'] then (parseByte operands).map .byte
  else if mnemonic = ['E', 'N', 'D'] then if trimBlanks operands = [] then some .endFrame else none
  else if mnemonic = ['S', 'R', 'E', 'S', 'E', 'T'] then if trimBlanks operands = [] then some .sreset else none
  else if mnemonic = ['S', 'E', 'N', 'D'] then (parseBytes operands).map .send
  else if mnemonic = ['S', 'Y', 'N', 'C'] then if trimBlanks operands = [] then some .sync else none
  else if mnemonic = ['C', 'R', 'C', 'O', 'N', 'L', 'Y'] then (parseBytes operands).map .crcOnly
  else if mnemonic = ['I', 'N', 'I', 'T'] then
    match parseBytes operands with
    | some [n, p] => some (.init n p)
    | _ => none
  else if mnemonic = ['S', 'E', 'T', 'L', 'E', 'D', 'S'] then
    match parseBytes operands with
    | some (o :: n :: colors) => some (.setLeds o n colors)
    | _ => none
  else none

/-- One line of text (30_encoding.md R79): `;` starts a comment; a line with nothing else gives no command. -/
def parseLine (line : List Char) : Option (List AsmLine) :=
  let text := trimBlanks (line.takeWhile fun c => c != ';')
  if text = [] then some []
  else
    (parseStatement (text.takeWhile fun c => !isBlank c) (text.dropWhile fun c => !isBlank c)).map fun l => [l]

/-- The command words of lines of text, or nothing if a line is no command. -/
def assembleLines : List (List Char) → Option (List Word)
  | [] => some []
  | line :: lines =>
    match parseLine line, assembleLines lines with
    | some ls, some ws => some (ls.flatMap assembleLine ++ ws)
    | _, _ => none

/-- The command words of an assembly text, one command on each line (30_encoding.md R79). -/
def assemble (text : String) : Option (List Word) := assembleLines (splitAtChar '\n' text.toList)

end Sys2Proof.Machine
end

