-- ==== Sys2Proof/Machine/Reference.lean ====
section
/-! DEFINITION. The functions on whole byte sequences that the spec gives beside the commands: the COBS encoding
(44_cobs.md R160), the runs it cuts (00_scope.md R12), the reference decoder (R171), the packet functions
(43_framer_commands.md R127) and the receiver's check (R130). No step calls them; claims compare the block with them. -/

namespace Sys2Proof.Machine

/-- The distance to the next zero byte, the end of the input or the cap, whichever comes first (44_cobs.md R160's `d`). -/
def runLength (x : List Byte) : Nat := ((x.take Config.maxRun).takeWhile fun b => b != 0x00#8).length

/-- The loop of `CobsEncode` (44_cobs.md R160) on the input from index i on, for at most `fuel` turns: the cap is tested
before the zero byte (R162). -/
def cobsEncodeFrom : Nat → List Byte → List Byte
  | 0, _ => []
  | _ + 1, [] => []
  | fuel + 1, x@(_ :: _) =>
    if runLength x = Config.maxRun then
      Config.saturatedLength :: (x.take Config.maxRun ++ cobsEncodeFrom fuel (x.drop Config.maxRun))
    else
      match x.drop (runLength x) with
      | _ :: [] => lengthByte (x.take (runLength x)) :: (x.take (runLength x) ++ [0x01#8])
      | _ :: rest => lengthByte (x.take (runLength x)) :: (x.take (runLength x) ++ cobsEncodeFrom fuel rest)
      | [] => lengthByte (x.take (runLength x)) :: x.take (runLength x)

/-- `CobsEncode(x)` (44_cobs.md R160): every turn consumes a byte, so `len(x)` turns are enough. -/
def cobsEncode (x : List Byte) : List Byte := cobsEncodeFrom x.length x

/-- The closed runs of an input, for at most `fuel` of them: each ended by the cap or by a zero byte (00_scope.md R12). -/
def closedRunsFrom : Nat → List Byte → List (List Byte)
  | 0, _ => []
  | fuel + 1, x =>
    if runLength x = Config.maxRun then x.take Config.maxRun :: closedRunsFrom fuel (x.drop Config.maxRun)
    else
      match x.drop (runLength x) with
      | [] => []
      | _ :: rest => x.take (runLength x) :: closedRunsFrom fuel rest

/-- The open run of an input: the bytes after its last closed run (00_scope.md R12). -/
def openRunFrom : Nat → List Byte → List Byte
  | 0, x => x
  | fuel + 1, x =>
    if runLength x = Config.maxRun then openRunFrom fuel (x.drop Config.maxRun)
    else
      match x.drop (runLength x) with
      | [] => x
      | _ :: rest => openRunFrom fuel rest

/-- The closed runs of a prefix pushed into the COBS stage (44_cobs.md R170). -/
def closedRuns (x : List Byte) : List (List Byte) := closedRunsFrom x.length x

/-- The open run of a prefix pushed into the COBS stage (44_cobs.md R170). -/
def openRun (x : List Byte) : List Byte := openRunFrom x.length x

/-- A run under its length byte (44_cobs.md R161). -/
def encodeRun (r : List Byte) : List Byte := lengthByte r :: r

/-- The loop of `CobsDecode` (44_cobs.md R171) on the input from index i on, for at most `fuel` turns. -/
def cobsDecodeFrom : Nat → List Byte → Option (List Byte)
  | _, [] => some []
  | 0, _ :: _ => none
  | fuel + 1, l :: rest =>
    if l = 0x00#8 ∨ l.toNat > rest.length + 1 then none
    else
      match cobsDecodeFrom fuel (rest.drop (l.toNat - 1)) with
      | none => none
      | some tail =>
        some (rest.take (l.toNat - 1)
          ++ ((if l.toNat < 255 ∧ rest.drop (l.toNat - 1) ≠ [] then [0x00#8] else []) ++ tail))

/-- `CobsDecode(y)` (44_cobs.md R171); `none` is `DecodeError`. -/
def cobsDecode (y : List Byte) : Option (List Byte) := cobsDecodeFrom y.length y

/-- `FrameOut(C, T, m)` (43_framer_commands.md R127). -/
def frameOut (crcEn termEn : Bool) (m : List Byte) : List Byte :=
  cobsEncode (m ++ if crcEn then checksumBytes (crc m) else []) ++ if termEn then [Config.terminator] else []

/-- `BuildPacket(m)` (43_framer_commands.md R127). -/
def buildPacket (m : List Byte) : List Byte := cobsEncode (m ++ checksumBytes (crc m)) ++ [Config.terminator]

/-- The receiver's check of one frame without its terminator (43_framer_commands.md R130): decode, split off the two
checksum bytes, and give the message if the recomputed CRC agrees. -/
def receiveFrame (f : List Byte) : Option (List Byte) :=
  match cobsDecode f with
  | none => none
  | some p =>
    if p.length < 2 then none
    else if checksumBytes (crc (p.take (p.length - 2))) = p.drop (p.length - 2) then some (p.take (p.length - 2))
    else none

/-- The stretches of a byte stream that a 0x00 ends, without it (43_framer_commands.md R129). -/
def splitFrames : List Byte → List (List Byte)
  | [] => []
  | b :: rest =>
    if b = 0x00#8 then [] :: splitFrames rest
    else if 0x00#8 ∈ rest then
      match splitFrames rest with
      | [] => []
      | f :: fs => (b :: f) :: fs
    else []

/-- The messages of a byte stream: every frame that passes the receiver's check (43_framer_commands.md R129, R130); a
corrupt one is dropped (70_reset_and_hazards.md R226). -/
def receiveStream (y : List Byte) : List (List Byte) := (splitFrames y).filterMap receiveFrame

end Sys2Proof.Machine
end

