-- ==== Sys2Proof/Safety.lean ====
section
/-! DEFINITION. The vocabulary of the claims: the invariants of 10_state.md R30, which commands are erroneous
(60_exceptions.md R193, R194), and the message a run of commands has given the block (10_state.md R24). -/

namespace Sys2Proof.Machine

/-- 10_state.md R30 (a) to (e), which hold at every step boundary. -/
abbrev State.Inv (s : State) : Prop :=
  (∀ b ∈ s.run, b ≠ 0x00#8) ∧
  s.run.length ≤ 253 ∧
  (s.mode = .idle → s.run = [] ∧ s.lastZero = false) ∧
  (s.lastZero = true → s.run = []) ∧
  (s.err = false ↔ s.cause = .noError)

/-- The cause a command word reports in a mode, if it is erroneous (60_exceptions.md R193, with the order of R194). The
conditions are on the word's bits, so that they do not rest on the decoder. -/
def errorOf (mode : Mode) (w : Word) : Option Cause :=
  if 5 ≤ (w >>> 8).toNat then some .illegalOpcode
  else if w >>> 8 = 1#16 ∧ w &&& 0x00FC#16 ≠ 0#16 then some .reservedField
  else if w >>> 8 = 1#16 ∧ mode = .frame then some .sequence
  else if (w >>> 8 = 2#16 ∨ w >>> 8 = 3#16) ∧ mode = .idle then some .sequence
  else none

/-- The data bytes of the BYTE commands executed since the last successful START, or since reset or SRESET (10_state.md
R24), after one more step from `s`, if they were `m` before it. -/
def heard (s : State) (m : List Byte) : List Byte :=
  match s.pending with
  | .hardReset :: _ => []
  | .issue (.word w) :: _ =>
    if errorOf s.mode w ≠ none then m
    else if w >>> 8 = 1#16 ∨ w >>> 8 = 4#16 then []
    else if w >>> 8 = 2#16 then m ++ [loByte w]
    else m
  | _ => m

/-- A host action that leaves an open frame alone (43_framer_commands.md R128, R131): a NOP, a START or an illegal command
word, or a view read. -/
def harmlessInFrame : HostAction → Bool
  | .issue (.word w) => hiByte w == 0x00#8 || hiByte w == 0x01#8 || decide (5 ≤ (hiByte w).toNat)
  | .issue (.message _) => false
  | .readStatus => true
  | .readCrc => true
  | .hardReset => false

/-- The data bytes of the BYTE commands among some actions, in order (43_framer_commands.md R128). -/
def bytesAmong (actions : List HostAction) : List Byte :=
  actions.filterMap fun a =>
    match a with
    | .issue (.word w) => if w >>> 8 = 2#16 then some (w.setWidth 8) else none
    | _ => none

/-- `k` steps, one after the other. -/
def steps : Nat → State → Host.Outcome State Fault Refusal
  | 0, s => .next s
  | k + 1, s =>
    match step s with
    | .next t => steps k t
    | .fault r => .fault r
    | .refused r => .refused r

/-- What the runs of an encoding stand for: the data bytes of each, and a zero byte after each but a saturated or the last
one (44_cobs.md R161). -/
def joinRuns : List (List Byte) → List Byte
  | [] => []
  | r :: [] => r
  | r :: rs => r ++ ((if r.length = 254 then [] else [0x00#8]) ++ joinRuns rs)

/-- `CrcStep` in the normal form (42_crc16.md R102): most significant bit first, with polynomial 0x8005. -/
def crcBitsNormal : Nat → Word → Word
  | 0, c => c
  | k + 1, c => crcBitsNormal k (if c.getLsbD 15 then (c <<< 1) ^^^ 0x8005#16 else c <<< 1)

/-- How many of the 65,536 command words the decoder answers in a given way (30_encoding.md R77). -/
def countWords (p : Except Reject Instr → Bool) : Nat :=
  ((List.range 65536).filter fun n => p (decode (.word (BitVec.ofNat 16 n)))).length

/-- Two states that agree on all but ERR, CAUSE and the values the host's view reads have returned. -/
abbrev sameButError (s t : State) : Prop :=
  s.mode = t.mode ∧ s.crcEn = t.crcEn ∧ s.termEn = t.termEn ∧ s.crc = t.crc ∧ s.run = t.run ∧
  s.lastZero = t.lastZero ∧ s.out = t.out ∧ s.pending = t.pending

end Sys2Proof.Machine
end

