-- ==== Sys2Proof/Certificates/Slice0/Obligations.lean ====
section
/-! DEFINITION. The statements for the provers, from the numbered rules of spec/. Each says in its docstring what it states
and which rules it rests on; the same words stand in OBLIGATIONS.json. -/

open Sys2Proof Sys2Proof.Machine

/-- O1, tier 1, stated (R121). NOP, with any DATA byte d, in any state: exec answers the same state. As the command word
0x0000 + d at the head of the port, the step answers the state without that word and nothing else changed. From
reset, 0x00FF leaves STATUS = 0x0000 and OUT = []. -/
def Obligations.NopChangesNothing : Prop :=
  (∀ (d : Byte) (s : State), exec (.nop d) s = .next s) ∧
  (∀ (d : Byte) (s : State) (rest : List HostAction), s.pending = command (0x0000#16 + d.setWidth 16) :: rest →
    step s = .next { s with pending := rest }) ∧
  (∃ t, step { State.reset with pending := [command 0x00FF#16] } = .next t ∧ statusView t = 0x0000#16 ∧ t.out = [])

/-- O2, tier 1, stated (R122, R72). START with DATA d. If d[7:2] = 0 and MODE = IDLE, the next state is the old one with
MODE = FRAME, CRC_EN = d[0], TERM_EN = d[1], CRC = 0x0000, RUN = [], LAST_ZERO = 0 and nothing else changed (nothing
emitted). If d[7:2] = 0 and MODE = FRAME, SEQUENCE is raised and nothing else. If d[7:2] is not 0, RESERVED_FIELD is
raised and nothing else, in either mode. The legal words are 0x0100 + flags: from IDLE, with flags C and T, the step
answers that open frame without the word. From reset, 0x0103 gives STATUS = 0x0031. -/
def Obligations.StartOpensFrame : Prop :=
  (∀ (d : Byte) (s : State), d &&& 0xFC#8 = 0x00#8 → s.mode = .idle →
    exec (.start d) s = .next { s with
      mode := .frame, crcEn := d.getLsbD 0, termEn := d.getLsbD 1, crc := 0x0000#16, run := [], lastZero := false }) ∧
  (∀ (d : Byte) (s : State), d &&& 0xFC#8 = 0x00#8 → s.mode = .frame →
    exec (.start d) s = .next (if s.err then s else { s with err := true, cause := .sequence })) ∧
  (∀ (d : Byte) (s : State), d &&& 0xFC#8 ≠ 0x00#8 →
    exec (.start d) s = .next (if s.err then s else { s with err := true, cause := .reservedField })) ∧
  (∀ (c t : Bool) (s : State) (rest : List HostAction), s.mode = .idle →
    s.pending = command (0x0100#16 + (if c then 1#16 else 0#16) + (if t then 2#16 else 0#16)) :: rest →
    step s = .next { s with
      mode := .frame, crcEn := c, termEn := t, crc := 0x0000#16, run := [], lastZero := false, pending := rest }) ∧
  (∀ (d : Byte) (s : State) (rest : List HostAction), d &&& 0xFC#8 ≠ 0x00#8 →
    s.pending = command (0x0100#16 + d.setWidth 16) :: rest →
    step s = .next (if s.err then { s with pending := rest }
      else { s with pending := rest, err := true, cause := .reservedField })) ∧
  (∃ t, step { State.reset with pending := [command 0x0103#16] } = .next t ∧ statusView t = 0x0031#16)

/-- O3, tier 1, stated (R123, R168). BYTE with data byte d. In a frame, CRC becomes CrcStep(CRC, d) whatever CRC_EN
holds, and: if d = 0x00 and RUN holds at most 253 bytes, as R30 says, OUT gains the length byte len(RUN)+1 and RUN,
RUN becomes [] and LAST_ZERO 1; if d is not 0x00 and RUN holds 253 bytes, OUT gains 0xFF and the 254 bytes, RUN
becomes [] and LAST_ZERO 0; if d is not 0x00 and RUN does not hold 253, RUN gains d, LAST_ZERO becomes 0 and nothing
is emitted. Nothing else changes. In IDLE, SEQUENCE is raised and nothing else. The word 0x0200 + d does this in a
step. -/
def Obligations.ByteFoldsCrcAndPushes : Prop :=
  (∀ (d : Byte) (s : State), s.mode = .frame → s.run.length ≤ 253 → d = 0x00#8 →
    exec (.byte d) s = .next { s with
      crc := crcStep s.crc d, out := s.out ++ BitVec.ofNat 8 (s.run.length + 1) :: s.run, run := [],
      lastZero := true }) ∧
  (∀ (d : Byte) (s : State), s.mode = .frame → d ≠ 0x00#8 → s.run.length = 253 →
    exec (.byte d) s = .next { s with
      crc := crcStep s.crc d, out := s.out ++ 0xFF#8 :: (s.run ++ [d]), run := [], lastZero := false }) ∧
  (∀ (d : Byte) (s : State), s.mode = .frame → d ≠ 0x00#8 → s.run.length ≠ 253 →
    exec (.byte d) s = .next { s with crc := crcStep s.crc d, run := s.run ++ [d], lastZero := false }) ∧
  (∀ (d : Byte) (s : State), s.mode = .idle →
    exec (.byte d) s = .next (if s.err then s else { s with err := true, cause := .sequence })) ∧
  (∀ (d : Byte) (s : State) (rest : List HostAction), s.pending = command (0x0200#16 + d.setWidth 16) :: rest →
    step s = exec (.byte d) { s with pending := rest })

/-- O4, tier 1, stated (R124, R169). END with any DATA. In a frame in which RUN holds at most 253 bytes, as R30 says: if
CRC_EN = 1, CRC[15:8] and then CRC[7:0] go through CobsPush; then OUT gains the open run under its length byte if it
is not empty, else [0x01] if LAST_ZERO = 1; then [0x00] if TERM_EN = 1. RUN becomes [], LAST_ZERO 0, MODE IDLE, and
every other field (CRC, CRC_EN, TERM_EN, ERR, CAUSE) is kept. In IDLE, SEQUENCE is raised and nothing else. The word
0x0300 + d does this in a step. Corner cases: a frame with no byte pushed and CRC = 0 emits [1,1,1] before the
terminator with CRC_EN = 1, and nothing before it with CRC_EN = 0. The example of the rule. -/
def Obligations.EndClosesFrame : Prop :=
  (∀ (d : Byte) (s p : State), s.mode = .frame → s.run.length ≤ 253 →
    p = (if s.crcEn then cobsPush (s.crc.setWidth 8) (cobsPush ((s.crc >>> 8).setWidth 8) s) else s) →
    exec (.endFrame d) s = .next { s with
      mode := .idle, run := [], lastZero := false,
      out := p.out ++ ((if p.run ≠ [] then BitVec.ofNat 8 (p.run.length + 1) :: p.run
          else if p.lastZero then [0x01#8] else []) ++ (if s.termEn then [0x00#8] else [])) }) ∧
  (∀ (d : Byte) (s : State), s.mode = .idle →
    exec (.endFrame d) s = .next (if s.err then s else { s with err := true, cause := .sequence })) ∧
  (∀ (d : Byte) (s : State) (rest : List HostAction), s.pending = command (0x0300#16 + d.setWidth 16) :: rest →
    step s = exec (.endFrame d) { s with pending := rest }) ∧
  (∀ (d : Byte) (s : State), s.mode = .frame → s.run = [] → s.lastZero = false → s.crc = 0x0000#16 →
    ∃ t, exec (.endFrame d) s = .next t ∧
      t.out = s.out ++ ((if s.crcEn then [0x01#8, 0x01#8, 0x01#8] else []) ++ if s.termEn then [0x00#8] else [])) ∧
  (∃ t, step { State.reset with
      mode := .frame, crcEn := true, termEn := true, crc := 0xA3C6#16, run := [0x0A#8, 0x05#8],
      pending := [command 0x0300#16] } = .next t ∧
    t.out = [0x05#8, 0x0A#8, 0x05#8, 0xA3#8, 0xC6#8, 0x00#8])

/-- O5, tier 1, stated (R125). SRESET with any DATA, in any state: MODE = IDLE, CRC_EN = TERM_EN = 0, CRC = 0x0000, RUN
= [], LAST_ZERO = 0, ERR = 0, CAUSE = NONE, and nothing else changes (OUT is kept, nothing is emitted). STATUS is
then 0x0000. The word 0x0400 + d does this in a step. -/
def Obligations.SresetClearsBlock : Prop :=
  (∀ (d : Byte) (s : State), ∃ t, exec (.sreset d) s = .next t ∧ statusView t = 0x0000#16 ∧
    t = { s with
      mode := .idle, crcEn := false, termEn := false, crc := 0x0000#16, run := [], lastZero := false, err := false,
      cause := .noError }) ∧
  (∀ (d : Byte) (s : State) (rest : List HostAction), s.pending = command (0x0400#16 + d.setWidth 16) :: rest →
    step s = exec (.sreset d) { s with pending := rest }) ∧
  (∃ t, step { State.reset with err := true, cause := .sequence, pending := [command 0x0400#16] } = .next t ∧
    statusView { State.reset with err := true, cause := .sequence } = 0x000E#16 ∧ statusView t = 0x0000#16)

/-- O6, tier 1, stated (R126, R75). For every opcode byte h from 0x05 to 0xFF and every DATA d, in any state: a step
with that word at the head of the port answers the state without the word in which, if ERR was 0, ERR = 1 and CAUSE
= ILLEGAL_OPCODE, and nothing else changed. From reset, 0x0900 gives STATUS = 0x0006. -/
def Obligations.IllegalOpcodeOnlyRecordsError : Prop :=
  (∀ (h d : Byte) (s : State) (rest : List HostAction), 5 ≤ h.toNat →
    s.pending = command (h.setWidth 16 <<< 8 + d.setWidth 16) :: rest →
    step s = .next (if s.err then { s with pending := rest }
      else { s with pending := rest, err := true, cause := .illegalOpcode })) ∧
  (∃ t, step { State.reset with pending := [command 0x0900#16] } = .next t ∧ statusView t = 0x0006#16)

/-- O7, tier 1, stated (R91, R92). The encoding of Init{n, p} is the message [0x00, n, p], of 3 bytes. The encoding of
SetLeds{o, n, colours} is [0x01, o, n] followed by the colours, of 3 + len(colours) bytes, for a colour list of any
length. Both are well formed for every operand and decode to themselves. The two examples of the rules. -/
def Obligations.MessageLayouts : Prop :=
  (∀ n p : Byte, (Instr.initMessage n p).wellFormed = true ∧ encode (.initMessage n p) = .message [0x00#8, n, p] ∧
    decode (.message [0x00#8, n, p]) = .ok (.initMessage n p)) ∧
  (∀ (o n : Byte) (cs : List Byte), (Instr.setLedsMessage o n cs).wellFormed = true ∧
    ∃ m, encode (.setLedsMessage o n cs) = .message m ∧ m = [0x01#8, o, n] ++ cs ∧
      m.length = 3 + cs.length ∧ decode (.message m) = .ok (.setLedsMessage o n cs)) ∧
  encode (.initMessage 10#8 5#8) = .message [0#8, 10#8, 5#8] ∧
  encode (.setLedsMessage 2#8 2#8 [0xFF#8, 0x00#8, 0x00#8, 0x00#8, 0xFF#8, 0x00#8]) =
    .message [1#8, 2#8, 2#8, 0xFF#8, 0x00#8, 0x00#8, 0x00#8, 0xFF#8, 0x00#8]

/-- O8, tier 1, derived (41_messages.md, opening section, R91, R92, 43_framer_commands.md R123). The model's own choice
(log entry 2), from the spec's sentence that the host feeds a message to the block through BYTE commands: exec of
Init{n, p} answers the old state with the BYTE words of 0x00, n, p before every other pending action, and exec of
SetLeds those of 0x01, o, n and the colours. No other field changes: no flag is written and no error is raised. -/
def Obligations.MessagesFeedByteCommands : Prop :=
  (∀ (n p : Byte) (s : State), exec (.initMessage n p) s = .next { s with
    pending := command 0x0200#16 :: command (0x0200#16 + n.setWidth 16) :: command (0x0200#16 + p.setWidth 16)
      :: s.pending }) ∧
  (∀ (o n : Byte) (cs : List Byte) (s : State), exec (.setLedsMessage o n cs) s = .next { s with
    pending := command 0x0201#16 :: command (0x0200#16 + o.setWidth 16) :: command (0x0200#16 + n.setWidth 16)
      :: (cs.map (fun b => command (0x0200#16 + b.setWidth 16)) ++ s.pending) })

/-- O9, tier 2, derived (R90, R93, R95, R196, 93_implementation_defined.md A5, A6). A message action at the head of the
port, of any bytes and any length including 0, of an assigned code or not, of its variant's length or not: the step
answers the old state with the message replaced by the BYTE words of its bytes, in order, and nothing else changed.
That messages are replaced in the list of actions is the model's choice (log entries 2 and 3); that no byte is
checked is R90's. -/
def Obligations.AnyMessageIsFedAsGiven : Prop :=
  ∀ (m : List Byte) (s : State) (rest : List HostAction), s.pending = .issue (.message m) :: rest →
    step s = .next { s with pending := m.map (fun b => command (0x0200#16 + b.setWidth 16)) ++ rest }

/-- O10, tier 1, derived (R120, R59, R11). When the host's next action issues an image that decodes to instruction i,
the step is exec of i at the state without that action. A table word placed by withFetchWord is that next action.
The model's choice: that the port is a list of actions and that withFetchWord puts one before it (log entry 1), that
a message is run as one action (log entry 2), and how a table word is laid out as an image (log entry 10). -/
def Obligations.StepRunsDecodedInstruction : Prop :=
  (∀ (im : Image) (i : Instr) (s : State) (rest : List HostAction), s.pending = .issue im :: rest →
    decode im = .ok i → step s = exec i { s with pending := rest }) ∧
  (∀ (nbits w : Nat) (i : Instr) (s : State), decodeTableWord nbits w = some i →
    step (s.withFetchWord nbits w) = exec i s)

/-- O11, tier 1, derived (10_state.md R20, its sentence on autonomous steps, R203). With nothing pending, a step answers
the same state. That the machine has a step with nothing pending is the model's choice (log entry 1); that the block
then does nothing is the sentence of R20. -/
def Obligations.IdleWithoutAction : Prop :=
  ∀ s : State, s.pending = [] → step s = .next s

/-- O12, tier 2, derived (R59, R223, R58). A step with action a at the head of the pending actions leaves the rest, in
order; only a message puts actions before the rest, its BYTE words. It records a value for the host exactly when a
is a view read. This covers every action, in every state. The model's choice: the list of actions (log entry 1), the
message as one action (log entry 2), the record of values read (log entry 4), and that a hardware reset keeps the
rest (log entry 8). The order and the values are the rules'. -/
def Obligations.PortIsTakenInOrder : Prop :=
  ∀ (a : HostAction) (s : State) (rest : List HostAction), s.pending = a :: rest →
    ∃ t, step s = .next t ∧
      t.pending = (match a with
        | .issue (.message m) => m.map (fun b => command (0x0200#16 + b.setWidth 16)) ++ rest
        | _ => rest) ∧
      t.reads = (match a with
        | .readStatus => s.reads ++ [.status (statusView s)]
        | .readCrc => s.reads ++ [.crc s.crc]
        | _ => s.reads)

/-- O13, tier 2, stated (R71, R76). For every 16-bit word n with low byte d: 0x0000 to 0x00FF is NOP d, 0x0100 to 0x0103
START d, 0x0104 to 0x01FF is rejected as a reserved field, 0x0200 to 0x02FF is BYTE d, 0x0300 to 0x03FF END d,
0x0400 to 0x04FF SRESET d, and 0x0500 to 0xFFFF is rejected as an illegal opcode. -/
def Obligations.WordClassesByRange : Prop :=
  ∀ (n : Nat) (d : Byte), n < 65536 → d = BitVec.ofNat 8 (n % 256) →
    decode (.word (BitVec.ofNat 16 n)) =
      if n < 0x0100 then .ok (.nop d)
      else if n < 0x0104 then .ok (.start d)
      else if n < 0x0200 then .error (.reservedField d)
      else if n < 0x0300 then .ok (.byte d)
      else if n < 0x0400 then .ok (.endFrame d)
      else if n < 0x0500 then .ok (.sreset d)
      else .error (.illegalOpcode (BitVec.ofNat 8 (n / 256)))

/-- O14, tier 2, stated (R77). Among the 65,536 words, NOP has 256, START has 4 legal and 252 reserved, BYTE has 256,
END has 256, SRESET has 256, and 64,256 are illegal; each word is exactly one of these. -/
def Obligations.WordCounts : Prop :=
  countWords (fun r => match r with | .ok (.nop _) => true | _ => false) = 256 ∧
  countWords (fun r => match r with | .ok (.start _) => true | _ => false) = 4 ∧
  countWords (fun r => match r with | .error (.reservedField _) => true | _ => false) = 252 ∧
  countWords (fun r => match r with | .ok (.byte _) => true | _ => false) = 256 ∧
  countWords (fun r => match r with | .ok (.endFrame _) => true | _ => false) = 256 ∧
  countWords (fun r => match r with | .ok (.sreset _) => true | _ => false) = 256 ∧
  countWords (fun r => match r with | .error (.illegalOpcode _) => true | _ => false) = 64256 ∧
  256 + 4 + 252 + 256 + 256 + 256 + 64256 = 65536

/-- O15, tier 3, derived (R70, R71, R72, R73, R91, R92). For every well-formed instruction of every family, with every
operand at every value its encoding admits (a colour list of any length), decode of encode is that instruction. -/
def Obligations.DecodeOfEncode : Prop :=
  ∀ i : Instr, i.wellFormed = true → decode (encode i) = .ok i

/-- O16, tier 2, derived (R70, R71, R72, R91, R92). If an image decodes to i, then i is well formed and encode of i is
that image: no bit of a word and no byte of a message is dropped, and no two images decode to one instruction. -/
def Obligations.EncodeOfDecode : Prop :=
  ∀ (im : Image) (i : Instr), decode im = .ok i → i.wellFormed = true ∧ encode i = im

/-- O17, tier 1, derived (30_encoding.md R71, R72, R79, 41_messages.md R91, R92). The assembled words of the spec:
0x00FF NOP, 0x0103 START CRC|TERM, 0x0241 BYTE 0x41, 0x03FF END, 0x04AA SRESET; the messages 00 0A 05 and 01 02 02
FF; the reserved word 0x0104 and the illegal word 0x0900 are rejected. -/
def Obligations.SampleWordsDecode : Prop :=
  decode (.word 0b0000000011111111#16) = .ok (.nop 0xFF#8) ∧
  decode (.word 0b0000000100000011#16) = .ok (.start 0x03#8) ∧
  decode (.word 0b0000001001000001#16) = .ok (.byte 0x41#8) ∧
  decode (.word 0b0000001111111111#16) = .ok (.endFrame 0xFF#8) ∧
  decode (.word 0b0000010010101010#16) = .ok (.sreset 0xAA#8) ∧
  decode (.message [0x00#8, 0x0A#8, 0x05#8]) = .ok (.initMessage 0x0A#8 0x05#8) ∧
  decode (.message [0x01#8, 0x02#8, 0x02#8, 0xFF#8]) = .ok (.setLedsMessage 0x02#8 0x02#8 [0xFF#8]) ∧
  decode (.word 0b0000000100000100#16) = .error (.reservedField 0x04#8) ∧
  decode (.word 0b0000100100000000#16) = .error (.illegalOpcode 0x09#8)

/-- O18, tier 1, stated (R74). For any two DATA bytes, the two words of NOP, of END and of SRESET give the same step
from any state and rest of the port. -/
def Obligations.DataOfNopEndSresetIsIgnored : Prop :=
  ∀ (h d d' : Byte) (s : State) (rest : List HostAction), h = 0x00#8 ∨ h = 0x03#8 ∨ h = 0x04#8 →
    step { s with pending := command (h.setWidth 16 <<< 8 + d.setWidth 16) :: rest } =
      step { s with pending := command (h.setWidth 16 <<< 8 + d'.setWidth 16) :: rest } ∧
    (h = 0x03#8 ∧ s.mode = .idle ∨
      ∃ t, step { s with pending := command (h.setWidth 16 <<< 8 + d.setWidth 16) :: rest } = .next t ∧
        (t.err = true → s.err = true))

/-- O19, tier 2, stated (R192, R193, R194). For every state, word w and rest of the port. If w is erroneous in the
current MODE (OPC 0x05 to 0xFF: ILLEGAL_OPCODE; else START with DATA[7:2] not 0: RESERVED_FIELD; else START in
FRAME, or BYTE or END in IDLE: SEQUENCE; tested in that order), the step answers the state without the word in
which, if ERR was 0, ERR = 1 and CAUSE is that cause, and nothing else changed. If w is not erroneous, the step
answers a state with ERR and CAUSE as they were, or both cleared if w is SRESET. -/
def Obligations.ErroneousCommandsAndPrecedence : Prop :=
  ∀ (w : Word) (s : State) (rest : List HostAction), s.pending = command w :: rest →
    (∀ c, errorOf s.mode w = some c →
      step s = .next (if s.err then { s with pending := rest }
        else { s with pending := rest, err := true, cause := c })) ∧
    (errorOf s.mode w = none → ∃ t, step s = .next t ∧
      (w >>> 8 = 4#16 ∧ t.err = false ∧ t.cause = .noError ∨
        w >>> 8 ≠ 4#16 ∧ t.err = s.err ∧ t.cause = s.cause))

/-- O20, tier 2, stated (R27, R28). Every step, from every state: a hardware reset or SRESET clears ERR and CAUSE; an
erroneous command word sets ERR, and CAUSE becomes its cause if ERR was 0 and is kept if ERR was 1; every other step
keeps both. So if CAUSE was NONE whenever ERR was 0, it still is. -/
def Obligations.ErrorIsStickyAndFirstCauseIsKept : Prop :=
  ∀ s : State, ∃ t, step s = .next t ∧
    (t.err, t.cause) = (match s.pending with
      | .hardReset :: _ => (false, .noError)
      | .issue (.word w) :: _ =>
        if w >>> 8 = 4#16 then (false, .noError)
        else
          match errorOf s.mode w with
          | some c => (true, if s.err then s.cause else c)
          | none => (s.err, s.cause)
      | _ => (s.err, s.cause)) ∧
    ((s.err = false → s.cause = .noError) → t.err = false → t.cause = .noError)

/-- O21, tier 2, stated (R200). Two states that agree on every field but ERR, CAUSE and the values the host has read:
their steps agree on every field but those. So no error report, past or present, influences MODE, CRC, RUN, OUT or
the rest. -/
def Obligations.ErrorReportDoesNotChangeBehaviour : Prop :=
  ∀ s s' : State, sameButError s s' → ∃ t t', step s = .next t ∧ step s' = .next t' ∧ sameButError t t' 

/-- O22, tier 3, stated (R30). From every state that meets R30 (a) to (e) (RUN holds no zero byte; it holds at most 253;
in IDLE RUN = [] and LAST_ZERO = 0; LAST_ZERO = 1 implies RUN = []; ERR = 0 iff CAUSE = 0), every step, whatever is
pending, answers a next state that meets them. -/
def Obligations.StepKeepsRunInvariant : Prop :=
  ∀ s : State, s.Inv → ∃ t, step s = .next t ∧ t.Inv

/-- O23, tier 1, derived (R30, R21). R30 (a) to (e) hold of the state after reset, with any actions of the host pending. -/
def Obligations.ResetMeetsRunInvariant : Prop :=
  ∀ p : List HostAction, State.Inv { State.reset with pending := p }

/-- O24, tier 2, derived (R190, R30, R195). For every number of steps k and every state that meets R30, k steps answer a
next state, never a fault or a refusal, and it meets R30. -/
def Obligations.MachineNeverStops : Prop :=
  ∀ (k : Nat) (s : State), s.Inv → ∃ t, steps k s = .next t ∧ t.Inv

/-- O25, tier 1, derived (R220, R221, R29). A step whose action is the hardware reset answers the old state with MODE =
IDLE, CRC_EN = TERM_EN = 0, CRC = 0x0000, RUN = [], LAST_ZERO = 0, ERR = 0, CAUSE = NONE; OUT is kept, and the rest
of the pending actions comes next. STATUS and the CRC view are then 0x0000, SRESET has the same effect, and the
state the model starts in has these values and OUT = []. That the actions already queued outlive the reset is the
model's choice (log entry 8, DESIGN CHOICE), and OUT = [] at the start of a run is its reading of R29 (log entry 9,
DEDUCED); the rest is R220 and R221. -/
def Obligations.HardResetSetsEveryElement : Prop :=
  (∀ (s : State) (rest : List HostAction), s.pending = .hardReset :: rest →
    ∃ t, step s = .next t ∧ statusView t = 0x0000#16 ∧ crcView t = 0x0000#16 ∧
      t = { s with
        mode := .idle, crcEn := false, termEn := false, crc := 0x0000#16, run := [], lastZero := false, err := false,
        cause := .noError, pending := rest } ∧
      ∀ d, exec (.sreset d) { s with pending := rest } = .next t) ∧
  statusView State.reset = 0x0000#16 ∧ crcView State.reset = 0x0000#16 ∧
  State.reset.mode = .idle ∧ State.reset.crcEn = false ∧ State.reset.termEn = false ∧ State.reset.run = [] ∧
  State.reset.lastZero = false ∧ State.reset.err = false ∧ State.reset.cause = .noError ∧ State.reset.out = []

/-- O26, tier 2, stated (R22). Every step, from every state: a hardware reset gives IDLE; a command word that is
erroneous in the current MODE keeps it; otherwise START gives FRAME, END and SRESET give IDLE; every other action
(NOP, BYTE, a message, a view read, none) keeps it. -/
def Obligations.ModeAfterStep : Prop :=
  ∀ s : State, ∃ t, step s = .next t ∧
    t.mode = (match s.pending with
      | .hardReset :: _ => .idle
      | .issue (.word w) :: _ =>
        if errorOf s.mode w ≠ none then s.mode
        else if w >>> 8 = 1#16 then .frame
        else if w >>> 8 = 3#16 ∨ w >>> 8 = 4#16 then .idle
        else s.mode
      | _ => s.mode)

/-- O27, tier 2, derived (R23). Every step, from every state: a hardware reset or SRESET clears both; a START that opens
a frame loads CRC_EN from bit 0 and TERM_EN from bit 1 of its word; every other step, END and erroneous commands
included, keeps both. -/
def Obligations.FrameFlagsAfterStep : Prop :=
  ∀ s : State, ∃ t, step s = .next t ∧
    (t.crcEn, t.termEn) = (match s.pending with
      | .hardReset :: _ => (false, false)
      | .issue (.word w) :: _ =>
        if errorOf s.mode w ≠ none then (s.crcEn, s.termEn)
        else if w >>> 8 = 1#16 then (w.getLsbD 0, w.getLsbD 1)
        else if w >>> 8 = 4#16 then (false, false)
        else (s.crcEn, s.termEn)
      | _ => (s.crcEn, s.termEn))

/-- O28, tier 2, stated (R106). Every step, from every state: a hardware reset, SRESET, or a START that succeeds sets
CRC to 0x0000; a BYTE that succeeds with data byte d sets it to CrcStep(CRC, d), whatever CRC_EN holds; END, NOP,
every erroneous command, view reads, messages and idle steps leave it unchanged. -/
def Obligations.CrcRegisterAfterStep : Prop :=
  ∀ s : State, ∃ t, step s = .next t ∧
    t.crc = (match s.pending with
      | .hardReset :: _ => 0x0000#16
      | .issue (.word w) :: _ =>
        if errorOf s.mode w ≠ none then s.crc
        else if w >>> 8 = 1#16 ∨ w >>> 8 = 4#16 then 0x0000#16
        else if w >>> 8 = 2#16 then crcStep s.crc (w.setWidth 8)
        else s.crc
      | _ => s.crc)

/-- O29, tier 2, stated (R24). If CRC = Crc(m) before a step, then after it CRC = Crc(m') where m' is m followed by the
data byte if the step executed a BYTE, [] if it executed a START, SRESET or reset, and m otherwise. The reset state
has CRC = Crc([]). -/
def Obligations.CrcRegisterIsCrcOfBytesHeard : Prop :=
  (∀ (s : State) (m : List Byte), s.crc = crc m → ∃ t, step s = .next t ∧ t.crc = crc (heard s m)) ∧
  State.reset.crc = crc []

/-- O30, tier 2, derived (R25, R26). Every step, from every state that meets R30: a hardware reset, a START that
succeeds, END and SRESET leave RUN = [] and LAST_ZERO = 0; a BYTE that succeeds with d = 0x00 leaves RUN = [] and
LAST_ZERO = 1, and with another d LAST_ZERO = 0 and RUN with d at its end, or [] if that makes 254; every other step
keeps both. -/
def Obligations.CobsStageAfterStep : Prop :=
  ∀ s : State, s.Inv → ∃ t, step s = .next t ∧
    (t.run, t.lastZero) = (match s.pending with
      | .hardReset :: _ => ([], false)
      | .issue (.word w) :: _ =>
        if errorOf s.mode w ≠ none then (s.run, s.lastZero)
        else if w >>> 8 = 1#16 ∨ w >>> 8 = 3#16 ∨ w >>> 8 = 4#16 then ([], false)
        else if w >>> 8 = 2#16 then
          if w.setWidth 8 = 0x00#8 then ([], true)
          else if s.run.length = 253 then ([], false)
          else (s.run ++ [w.setWidth 8], false)
        else (s.run, s.lastZero)
      | _ => (s.run, s.lastZero))

/-- O31, tier 2, stated (R29). Every step, from every state: OUT before is a prefix of OUT after. It is unchanged by
every action that is not a BYTE or END word: NOP, START, SRESET, illegal words, messages, view reads, the hardware
reset, and an idle step. -/
def Obligations.OutputOnlyGrows : Prop :=
  ∀ s : State, ∃ t, step s = .next t ∧ s.out <+: t.out ∧
    ((∀ w rest, s.pending = command w :: rest → w >>> 8 ≠ 2#16 ∧ w >>> 8 ≠ 3#16) → t.out = s.out)

/-- O32, tier 2, stated (R232). From a state that meets R30, with word w at the head of the port: an erroneous word,
NOP, START and SRESET emit nothing; BYTE emits nothing, or len(RUN)+1 bytes (1 to 254) if its byte is zero, or 255
if it fills the run to 254; END emits at most 258, and exactly 258 with CRC_EN = TERM_EN = 1, 253 bytes in RUN and a
non-zero high checksum byte. -/
def Obligations.BytesEmittedPerCommand : Prop :=
  ∀ (w : Word) (s : State) (rest : List HostAction), s.Inv → s.pending = command w :: rest →
    ∃ t x, step s = .next t ∧ t.out = s.out ++ x ∧ x.length ≤ 258 ∧
      (errorOf s.mode w ≠ none ∨ w >>> 8 = 0#16 ∨ w >>> 8 = 1#16 ∨ w >>> 8 = 4#16 → x = []) ∧
      (errorOf s.mode w = none → w >>> 8 = 2#16 →
        (w.setWidth 8 = 0x00#8 → x.length = s.run.length + 1 ∧ 1 ≤ x.length ∧ x.length ≤ 254) ∧
        (w.setWidth 8 ≠ 0x00#8 → s.run.length = 253 → x.length = 255) ∧
        (w.setWidth 8 ≠ 0x00#8 → s.run.length ≠ 253 → x = [])) ∧
      (errorOf s.mode w = none → w >>> 8 = 3#16 → s.crcEn = true → s.termEn = true → s.run.length = 253 →
        s.crc >>> 8 ≠ 0#16 → x.length = 258)

/-- O33, tier 2, derived (R31, R57, R121, R122, R123, R124, R125, R91, R92). For every state and every next state exec
answers. NOP: every field. START: OUT, and the host's side (pending, reads). BYTE: MODE, CRC_EN, TERM_EN and the
host's side; OUT unless a run closes. END: CRC, CRC_EN, TERM_EN and the host's side. SRESET: OUT and the host's
side. Init and SetLeds: every field of the block, OUT and reads; only the pending actions grow, at their head. BYTE
and END in a frame leave ERR and CAUSE. The hardware has no registers and no memory beside these fields. The two
clauses of Init and SetLeds are the model's choice (log entry 2), as are the fields of the host's side (log entries
1 and 4); those of the five commands are the rules'. -/
def Obligations.CommandFrames : Prop :=
  ∀ (i : Instr) (s : State), ∃ t, exec i s = .next t ∧
    (match i with
      | .nop _ => t = s
      | .start _ => t.out = s.out ∧ t.pending = s.pending ∧ t.reads = s.reads
      | .byte d => t.mode = s.mode ∧ t.crcEn = s.crcEn ∧ t.termEn = s.termEn ∧ t.pending = s.pending ∧
        t.reads = s.reads ∧ (d ≠ 0x00#8 → s.run.length ≠ 253 → t.out = s.out) ∧
        (s.mode = .frame → t.err = s.err ∧ t.cause = s.cause)
      | .endFrame _ => t.crc = s.crc ∧ t.crcEn = s.crcEn ∧ t.termEn = s.termEn ∧ t.pending = s.pending ∧
        t.reads = s.reads ∧ (s.mode = .frame → t.err = s.err ∧ t.cause = s.cause)
      | .sreset _ => t.out = s.out ∧ t.pending = s.pending ∧ t.reads = s.reads
      | .initMessage _ _ => (∃ p, t.pending = p ++ s.pending) ∧ t = { s with pending := t.pending }
      | .setLedsMessage _ _ _ => (∃ p, t.pending = p ++ s.pending) ∧ t = { s with pending := t.pending })

/-- O34, tier 2, stated (R34). STATUS as a number is MODE + 2*ERR + 4*CAUSE + 16*CRC_EN + 32*TERM_EN + 64*LAST_ZERO +
256*len(RUN) for a run of at most 253 bytes, with MODE 1 in FRAME and CAUSE 0 to 3 in the order NONE,
ILLEGAL_OPCODE, RESERVED_FIELD, SEQUENCE; so bit 7 reads 0. After reset STATUS = 0x0000. -/
def Obligations.StatusViewLayout : Prop :=
  (∀ s : State, s.run.length ≤ 253 →
    (statusView s).toNat = (match s.mode with | .idle => 0 | .frame => 1) + 2 * s.err.toNat
      + 4 * (match s.cause with | .noError => 0 | .illegalOpcode => 1 | .reservedField => 2 | .sequence => 3)
      + 16 * s.crcEn.toNat + 32 * s.termEn.toNat + 64 * s.lastZero.toNat + 256 * s.run.length ∧
    (statusView s).getLsbD 7 = false) ∧
  statusView State.reset = 0x0000#16

/-- O35, tier 1, derived (R35, R36, R58). A step whose action is a view read answers the old state without that action
and with the view's value of this step boundary added to the host's record (the record is the model's own, log entry
4): no field of the block and no byte of OUT changes. Two reads of one view with no command between them return the
same value. -/
def Obligations.ViewReadsHaveNoSideEffect : Prop :=
  (∀ (s : State) (rest : List HostAction), s.pending = .readStatus :: rest →
    step s = .next { s with pending := rest, reads := s.reads ++ [.status (statusView s)] }) ∧
  (∀ (s : State) (rest : List HostAction), s.pending = .readCrc :: rest →
    step s = .next { s with pending := rest, reads := s.reads ++ [.crc s.crc] }) ∧
  (∀ (s : State) (rest : List HostAction), s.pending = .readStatus :: .readStatus :: rest →
    ∃ t v, steps 2 s = .next t ∧ t.reads = s.reads ++ [.status v, .status v]) ∧
  (∀ (s : State) (rest : List HostAction), s.pending = .readCrc :: .readCrc :: rest →
    ∃ t v, steps 2 s = .next t ∧ t.reads = s.reads ++ [.crc v, .crc v])

/-- O36, tier 2, derived (R107, R229, R100, R101). Crc(m followed by m') is CrcStep folded over m' from Crc(m); Crc of
any all-zero message is 0x0000, and zero bytes before a message do not change its Crc; CrcStep(c1 ^ c2, b1 ^ b2) =
CrcStep(c1, b1) ^ CrcStep(c2, b2). -/
def Obligations.CrcProperties : Prop :=
  (∀ m m' : List Byte, crc (m ++ m') = m'.foldl crcStep (crc m)) ∧
  (∀ (k : Nat) (m : List Byte), crc (List.replicate k 0x00#8) = 0x0000#16 ∧
    crc (List.replicate k 0x00#8 ++ m) = crc m) ∧
  (∀ (c c' : Word) (b b' : Byte), crcStep (c ^^^ c') (b ^^^ b') = crcStep c b ^^^ crcStep c' b')

/-- O37, tier 2, derived (R102, R54, 93_implementation_defined.md G1, G2). For every CRC value and byte, CrcStep is the
bit-reversed image of the most-significant-bit-first step with polynomial 0x8005: reverse the CRC value and the
byte, XOR the byte into the high byte, shift left eight times with XOR 0x8005 on each carry out, and reverse the
result. So 0xA001 is the reversal of 0x8005, and input and output are reflected. -/
def Obligations.CrcStepIsReflectedNormalForm : Prop :=
  ∀ (c : Word) (b : Byte),
    crcStep c b = (crcBitsNormal 8 (c.reverse ^^^ (b.reverse.setWidth 16 <<< 8))).reverse

/-- O38, tier 2, stated (R160, R162, R163, R164). CobsEncode([]) = []. For r of 254 non-zero bytes and any y (also y =
[] and y beginning with a zero byte), CobsEncode(r y) = 0xFF, r, CobsEncode(y). For r of at most 253 non-zero bytes
(also none), CobsEncode(r 0x00 y) = len(r)+1, r, and then CobsEncode(y), or the trailing 0x01 if y = []. For r of 1
to 253 non-zero bytes, CobsEncode(r) = len(r)+1, r. -/
def Obligations.CobsEncodeLoop : Prop :=
  cobsEncode [] = [] ∧
  (∀ r y : List Byte, (∀ b ∈ r, b ≠ 0x00#8) → r.length = 254 →
    cobsEncode (r ++ y) = 0xFF#8 :: (r ++ cobsEncode y)) ∧
  (∀ r y : List Byte, (∀ b ∈ r, b ≠ 0x00#8) → r.length ≤ 253 →
    cobsEncode (r ++ 0x00#8 :: y) =
      BitVec.ofNat 8 (r.length + 1) :: (r ++ if y = [] then [0x01#8] else cobsEncode y)) ∧
  (∀ r : List Byte, (∀ b ∈ r, b ≠ 0x00#8) → 1 ≤ r.length → r.length ≤ 253 →
    cobsEncode r = BitVec.ofNat 8 (r.length + 1) :: r)

/-- O39, tier 2, stated (R161). Every encoding of a non-empty input is a sequence of runs, each under the length byte
that is its number of data bytes plus 1 (1 to 255, never 0x00), of at most 254 data bytes, all non-zero. The input
is the data of the runs with one zero byte after each run but a saturated one (length byte 255) and the last. -/
def Obligations.CobsEncodingIsRunsUnderLengthBytes : Prop :=
  ∀ x : List Byte, x ≠ [] → ∃ rs : List (List Byte), rs ≠ [] ∧
    cobsEncode x = rs.flatMap (fun r => BitVec.ofNat 8 (r.length + 1) :: r) ∧ x = joinRuns rs ∧
    ∀ r ∈ rs, r.length ≤ 254 ∧ (BitVec.ofNat 8 (r.length + 1) : Byte).toNat = r.length + 1 ∧
      ∀ b ∈ r, b ≠ 0x00#8

/-- O40, tier 2, stated (R166). No byte of CobsEncode(x) is 0x00, for any byte sequence x. -/
def Obligations.CobsEncodeHasNoZeroByte : Prop :=
  ∀ x : List Byte, 0x00#8 ∉ cobsEncode x

/-- O41, tier 2, stated (R170). From any state with RUN = [] and LAST_ZERO = 0: after CobsPush of the bytes of x, in
order, OUT has gained the encoding of every closed run of x, RUN holds the open run, and LAST_ZERO = 1 exactly when
the last byte pushed is 0x00; after CobsFinish, OUT has gained exactly CobsEncode(x), RUN = [] and LAST_ZERO = 0.
Since x is any sequence, the first part holds after every prefix. -/
def Obligations.StreamingStageComputesCobsEncode : Prop :=
  ∀ (x : List Byte) (s : State), s.run = [] → s.lastZero = false →
    ∃ p, p = x.foldl (fun u b => cobsPush b u) s ∧
      p.out = s.out ++ (closedRuns x).flatMap encodeRun ∧ p.run = openRun x ∧
      (p.lastZero = true ↔ x.getLast? = some 0x00#8) ∧
      (cobsFinish p).out = s.out ++ cobsEncode x ∧ (cobsFinish p).run = [] ∧ (cobsFinish p).lastZero = false

/-- O42, tier 2, stated (R171). CobsDecode([]) = []. A length byte of 0x00, or one greater than the bytes left including
itself, gives DecodeError. Otherwise, with length byte L and d of L-1 bytes before y, CobsDecode gives d, then a
zero byte if L < 255 and y is not empty, then CobsDecode(y), or DecodeError if that is one. -/
def Obligations.CobsDecodeLoop : Prop :=
  cobsDecode [] = some [] ∧
  (∀ (l : Byte) (y : List Byte), l = 0x00#8 ∨ l.toNat > y.length + 1 → cobsDecode (l :: y) = none) ∧
  (∀ (l : Byte) (d y : List Byte), l ≠ 0x00#8 → d.length = l.toNat - 1 →
    cobsDecode (l :: (d ++ y)) =
      (cobsDecode y).map fun z => d ++ ((if l ≠ 0xFF#8 ∧ y ≠ [] then [0x00#8] else []) ++ z))

/-- O43, tier 3, stated (R172). CobsDecode(CobsEncode(x)) = x for every byte sequence x: the empty one, all-zero ones,
ones longer than 254 bytes. CobsEncode(x) contains no zero byte. -/
def Obligations.CobsRoundTrip : Prop :=
  ∀ x : List Byte, cobsDecode (cobsEncode x) = some x ∧ ∀ b ∈ cobsEncode x, b ≠ 0x00#8

/-- O44, tier 2, stated (R173). len(CobsEncode([])) = 0. For n = len(x) at least 1, n + 1 <= len(CobsEncode(x)) <= n + 1
+ floor((n-1)/254), and the upper bound is reached when x has no zero byte. -/
def Obligations.CobsEncodeLength : Prop :=
  (cobsEncode []).length = 0 ∧
  ∀ x : List Byte, x ≠ [] →
    x.length + 1 ≤ (cobsEncode x).length ∧ (cobsEncode x).length ≤ x.length + 1 + (x.length - 1) / 254 ∧
    (0x00#8 ∉ x → (cobsEncode x).length = x.length + 1 + (x.length - 1) / 254)

/-- O45, tier 2, stated (R174). [] and [0x01] both decode to []. After any y that decodes, a final saturated run decodes
the same with and without a following 0x01. -/
def Obligations.CobsDecodeIsNotInjective : Prop :=
  cobsDecode [] = some [] ∧ cobsDecode [0x01#8] = some [] ∧
  ∀ y r : List Byte, r.length = 254 → cobsDecode y ≠ none →
    cobsDecode (y ++ 0xFF#8 :: r) ≠ none ∧
    cobsDecode (y ++ 0xFF#8 :: r) = cobsDecode (y ++ 0xFF#8 :: (r ++ [0x01#8]))

/-- O46, tier 2, derived (R128, R127). From any state with MODE = IDLE whose port holds START with flags C and T, the
BYTE words of m, an END word with any DATA, and then any rest: after len(m) + 2 steps OUT has gained exactly
FrameOut(C, T, m), MODE = IDLE, CRC = Crc(m), CRC_EN = C, TERM_EN = T, RUN = [], LAST_ZERO = 0, the rest is pending,
and ERR, CAUSE and the values read are unchanged. With C = T = 1 what OUT gains is BuildPacket(m). -/
def Obligations.FrameSequenceComputesFrameOut : Prop :=
  ∀ (c t : Bool) (d : Byte) (m : List Byte) (s : State) (rest : List HostAction), s.mode = .idle →
    s.pending = command (0x0100#16 + (if c then 1#16 else 0#16) + (if t then 2#16 else 0#16))
      :: (m.map (fun b => command (0x0200#16 + b.setWidth 16)) ++ command (0x0300#16 + d.setWidth 16) :: rest) →
    steps (m.length + 2) s = .next { s with
      mode := .idle, crcEn := c, termEn := t, crc := crc m, run := [], lastZero := false,
      out := s.out ++ frameOut c t m, pending := rest } ∧
    frameOut true true m = buildPacket m

/-- O47, tier 2, derived (R128, R131, R36). From any state with MODE = IDLE whose port holds START with flags C and T,
any list of actions each of which is a BYTE word, a NOP word, a START word of any DATA, an illegal word or a view
read, and an END word: after those steps OUT has gained exactly FrameOut(C, T, m) for m the bytes of the BYTE words
in order, MODE = IDLE, CRC = Crc(m), CRC_EN = C, TERM_EN = T, RUN = [], LAST_ZERO = 0. -/
def Obligations.InterleavedActionsLeaveFrameBytes : Prop :=
  ∀ (c t : Bool) (d : Byte) (acts : List HostAction) (s : State) (rest : List HostAction), s.mode = .idle →
    (∀ a ∈ acts, harmlessInFrame a = true ∨ ∃ b : Byte, a = command (0x0200#16 + b.setWidth 16)) →
    s.pending = command (0x0100#16 + (if c then 1#16 else 0#16) + (if t then 2#16 else 0#16))
      :: (acts ++ command (0x0300#16 + d.setWidth 16) :: rest) →
    ∃ u, steps (acts.length + 2) s = .next u ∧ u.out = s.out ++ frameOut c t (bytesAmong acts) ∧ u.mode = .idle ∧
      u.crc = crc (bytesAmong acts) ∧ u.crcEn = c ∧ u.termEn = t ∧ u.run = [] ∧ u.lastZero = false ∧
      u.pending = rest

/-- O48, tier 2, derived (R37, R170, R24, R26). From any state with MODE = IDLE whose port holds START with flags C and
T and then the BYTE words of m: after len(m) + 1 steps OUT has gained the encoding of every closed run of m and no
byte of the open run, RUN is the open run, LAST_ZERO = 1 exactly when m ends in 0x00, MODE = FRAME and CRC = Crc(m). -/
def Obligations.OpenFrameShowsOnlyClosedRuns : Prop :=
  ∀ (c t : Bool) (m : List Byte) (s : State) (rest : List HostAction), s.mode = .idle →
    s.pending = command (0x0100#16 + (if c then 1#16 else 0#16) + (if t then 2#16 else 0#16))
      :: (m.map (fun b => command (0x0200#16 + b.setWidth 16)) ++ rest) →
    steps (m.length + 1) s = .next { s with
      mode := .frame, crcEn := c, termEn := t, crc := crc m, run := openRun m,
      lastZero := decide (m.getLast? = some 0x00#8),
      out := s.out ++ (closedRuns m).flatMap encodeRun, pending := rest }

/-- O49, tier 2, derived (R90, R96, R127, R128). From any state with MODE = IDLE whose pending actions are START
CRC|TERM, a message of any bytes, END, and then any rest: after len(m) + 3 steps OUT has gained exactly
BuildPacket(m). That a message is one action that turns into BYTE words is the model's choice (log entry 2). -/
def Obligations.SendingAMessageBuildsItsPacket : Prop :=
  ∀ (m : List Byte) (s : State) (rest : List HostAction), s.mode = .idle →
    s.pending = command 0x0103#16 :: .issue (.message m) :: command 0x0300#16 :: rest →
    ∃ t, steps (m.length + 3) s = .next t ∧ t.out = s.out ++ buildPacket m ∧ t.mode = .idle ∧ t.pending = rest ∧
      t.err = s.err ∧ t.cause = s.cause

/-- O50, tier 2, stated (R80). SEND m expands to 0x0103, the BYTE words of m, 0x0300; SYNC to 0x0102, 0x0300; CRCONLY m
to 0x0100, the BYTE words, 0x0300; INIT n, p to SEND 0x00, n, p; SETLEDS o, n, colours to SEND 0x01, o, n, colours.
Run from MODE = IDLE, the words of SEND m append BuildPacket(m) to OUT; those of SYNC append [0x00]; those of
CRCONLY m append CobsEncode(m), and the CRC view then reads Crc(m). -/
def Obligations.PseudoCommandsExpandAndRun : Prop :=
  (∀ m : List Byte, assembleLine (.send m) =
    0x0103#16 :: (m.map (fun b => 0x0200#16 + b.setWidth 16) ++ [0x0300#16])) ∧
  assembleLine .sync = [0x0102#16, 0x0300#16] ∧
  (∀ m : List Byte, assembleLine (.crcOnly m) =
    0x0100#16 :: (m.map (fun b => 0x0200#16 + b.setWidth 16) ++ [0x0300#16])) ∧
  (∀ n p : Byte, assembleLine (.init n p) = assembleLine (.send [0x00#8, n, p])) ∧
  (∀ (o n : Byte) (cs : List Byte), assembleLine (.setLeds o n cs) = assembleLine (.send (0x01#8 :: o :: n :: cs))) ∧
  (∀ (l : AsmLine) (s : State) (rest : List HostAction), s.mode = .idle →
    s.pending = (assembleLine l).map command ++ rest →
    ∃ t, steps (assembleLine l).length s = .next t ∧ t.pending = rest ∧
      (∀ m, l = .send m → t.out = s.out ++ buildPacket m) ∧
      (l = .sync → t.out = s.out ++ [0x00#8]) ∧
      (∀ m, l = .crcOnly m → t.out = s.out ++ cobsEncode m ∧ crcView t = crc m))

/-- O51, tier 1, derived (R79). For every byte b, the lines BYTE with b in decimal and BYTE 0x with b in hexadecimal
assemble to the word 0x0200 + b. START 0, CRC, TERM, CRC|TERM and START 0 to 3 assemble to 0x0100 to 0x0103. NOP,
END and SRESET assemble with DATA = 0x00. A comment after ; is ignored. That the digits of 0x may be written in
lower case is the model's choice (log entry 12). -/
def Obligations.AssemblerReadsEveryOperand : Prop :=
  (∀ b : Byte,
    assembleLines ["BYTE ".toList ++ Nat.toDigits 10 b.toNat] = some [0x0200#16 + b.setWidth 16] ∧
    assembleLines ["BYTE 0x".toList ++ (Nat.toDigits 16 b.toNat ++ " ; a comment".toList)] =
      some [0x0200#16 + b.setWidth 16]) ∧
  assembleLines ["START 0".toList, "START CRC".toList, "START TERM".toList, "START CRC|TERM".toList] =
    some [0x0100#16, 0x0101#16, 0x0102#16, 0x0103#16] ∧
  assembleLines ["START 1".toList, "START 2".toList, "START 3".toList] = some [0x0101#16, 0x0102#16, 0x0103#16] ∧
  assembleLines ["NOP".toList, "END".toList, "SRESET".toList] = some [0x0000#16, 0x0300#16, 0x0400#16]

/-- O52, tier 2, derived (R129, R233). For every message m: BuildPacket(m) is a body without a zero byte followed by
0x00, and its length lies between len(m) + 4 and len(m) + 4 + floor((len(m)+1)/254). -/
def Obligations.FrameGuarantees : Prop :=
  ∀ m : List Byte, ∃ body, buildPacket m = body ++ [0x00#8] ∧ 0x00#8 ∉ body ∧
    m.length + 4 ≤ (buildPacket m).length ∧ (buildPacket m).length ≤ m.length + 4 + (m.length + 1) / 254

/-- O53, tier 3, stated (R130). Let f = BuildPacket(m) and p = CobsDecode of f without its last byte. Then p = m
followed by the two checksum bytes; p without its last two bytes is m; and Crc(m) = p[len(p)-2] << 8 | p[len(p)-1]. -/
def Obligations.ReceiverCheck : Prop :=
  ∀ m : List Byte, ∃ p, cobsDecode ((buildPacket m).take ((buildPacket m).length - 1)) = some p ∧
    p = m ++ [hiByte (crc m), loByte (crc m)] ∧ p.take (p.length - 2) = m ∧
    ∃ hi lo : Byte, p.drop (p.length - 2) = [hi, lo] ∧ crc m = hi.setWidth 16 <<< 8 ||| lo.setWidth 16

/-- O54, tier 3, derived (R129, R130). For every list of messages: the receiver that splits the concatenated frames at
each 0x00, decodes each piece and checks its CRC gets exactly those messages, in order. What that receiver does with
a bad frame or with an unterminated tail is the model's choice (log entry 11); such frames do not occur here. -/
def Obligations.FrameStreamIsSelfDelimiting : Prop :=
  ∀ ms : List (List Byte), receiveStream (ms.map buildPacket).flatten = ms

/-- O55, tier 2, derived (R226, R125, R127, R220, R221). From any state, also in the middle of a frame, whose pending
actions are an abort (an SRESET word with any DATA, or the hardware reset), SYNC (0x0102, 0x0300) and then the words
of SEND m: after those steps OUT has gained 0x00 and BuildPacket(m) and nothing of the aborted run, and the last
message a receiver gets from the whole of OUT is m. That the actions queued behind a hardware reset outlive it is
the model's choice (log entry 8), and so is what the receiver does with a bad frame (log entry 11). -/
def Obligations.ResynchronisationAfterAbort : Prop :=
  ∀ (a : HostAction) (m : List Byte) (s : State) (rest : List HostAction),
    (a = .hardReset ∨ ∃ d : Byte, a = command (0x0400#16 + d.setWidth 16)) →
    s.pending = a :: command 0x0102#16 :: command 0x0300#16
      :: ((assembleLine (.send m)).map command ++ rest) →
    ∃ t, steps (m.length + 5) s = .next t ∧ t.out = s.out ++ 0x00#8 :: buildPacket m ∧ t.pending = rest ∧
      ∃ earlier, receiveStream t.out = earlier ++ [m]
end

