-- ==== Sys2Proof/Laws/Cobs.lean ====
section
/-! SUPPORT. The run at the head of an input, and that the reference functions' fuel is enough: with these an induction
over the runs of an input needs no index arithmetic. -/

namespace Sys2Proof.Machine

/-- Every byte is non-zero. -/
abbrev NonZero (r : List Byte) : Prop := ∀ b ∈ r, b ≠ 0x00#8

theorem nonZero_nil : NonZero [] := fun _ h => absurd h List.not_mem_nil

theorem nonZero_cons {b : Byte} {r : List Byte} (hb : b ≠ 0x00#8) (h : NonZero r) : NonZero (b :: r) :=
  List.forall_mem_cons.mpr ⟨hb, h⟩

theorem takeWhile_nonZero (r y : List Byte) (h : NonZero r) :
    (r ++ y).takeWhile (fun b => b != 0x00#8) = r ++ y.takeWhile (fun b => b != 0x00#8) :=
  List.takeWhile_append_of_pos (by simpa using h)

theorem nonZero_take {r : List Byte} (h : NonZero r) (k : Nat) : NonZero (r.take k) :=
  fun b hb => h b (List.mem_of_mem_take hb)

/-- A run of 254 non-zero bytes is cut at the cap (44_cobs.md R162). -/
theorem runLength_saturated (r y : List Byte) (h : NonZero r) (hl : r.length = 254) : runLength (r ++ y) = 254 := by
  have ht : (r ++ y).take Config.maxRun = r := by simp [Config.maxRun, ← hl]
  have := takeWhile_nonZero r [] h
  simp only [List.append_nil, List.takeWhile_nil] at this
  rw [runLength, ht, this, hl]

/-- A shorter run is ended by the zero byte after it. -/
theorem runLength_zero (r y : List Byte) (h : NonZero r) (hl : r.length ≤ 253) :
    runLength (r ++ 0x00#8 :: y) = r.length := by
  have ht : (r ++ 0x00#8 :: y).take Config.maxRun = r ++ 0x00#8 :: y.take (253 - r.length) := by
    rw [List.take_append, List.take_of_length_le (by simp [Config.maxRun]; omega),
      show Config.maxRun - r.length = (253 - r.length) + 1 by simp [Config.maxRun]; omega, List.take_succ_cons]
  rw [runLength, ht, takeWhile_nonZero r _ h]
  simp

/-- A run that the end of the input ends. -/
theorem runLength_end (r : List Byte) (h : NonZero r) (hl : r.length ≤ 254) : runLength r = r.length := by
  have := takeWhile_nonZero r [] h
  simp only [List.append_nil, List.takeWhile_nil] at this
  rw [runLength, List.take_of_length_le (by simpa [Config.maxRun] using hl), this]

/-- Every input begins with a saturated run, with a run ended by a zero byte, or is one run of at most 253 bytes. -/
theorem run_cases (x : List Byte) :
    (∃ r y, NonZero r ∧ r.length = 254 ∧ x = r ++ y) ∨
    (∃ r y, NonZero r ∧ r.length ≤ 253 ∧ x = r ++ 0x00#8 :: y) ∨
    (NonZero x ∧ x.length ≤ 253) := by
  induction x with
  | nil => exact .inr (.inr ⟨nonZero_nil, by simp⟩)
  | cons b x ih =>
    by_cases hb : b = 0x00#8
    · exact .inr (.inl ⟨[], x, nonZero_nil, by simp, by simp [hb]⟩)
    · obtain ⟨r, y, hr, hl, rfl⟩ | ⟨r, y, hr, hl, rfl⟩ | ⟨hx, hl⟩ := ih
      · refine .inl ⟨(b :: r).take 254, (b :: r).drop 254 ++ y, ?_, by simp [hl], ?_⟩
        · exact nonZero_take (nonZero_cons hb hr) _
        · rw [← List.append_assoc, List.take_append_drop]; rfl
      · by_cases h : r.length = 253
        · exact .inl ⟨b :: r, 0x00#8 :: y, nonZero_cons hb hr, by simp [h], rfl⟩
        · exact .inr (.inl ⟨b :: r, y, nonZero_cons hb hr, by simp only [List.length_cons]; omega, rfl⟩)
      · by_cases h : x.length = 253
        · exact .inl ⟨b :: x, [], nonZero_cons hb hx, by simp [h], by simp⟩
        · exact .inr (.inr ⟨nonZero_cons hb hx, by simp only [List.length_cons]; omega⟩)

/-- Induction over the runs of an input. -/
theorem run_induction {P : List Byte → Prop}
    (saturated : ∀ r y, NonZero r → r.length = 254 → P y → P (r ++ y))
    (zero : ∀ r y, NonZero r → r.length ≤ 253 → P y → P (r ++ 0x00#8 :: y))
    (last : ∀ r, NonZero r → r.length ≤ 253 → P r) (x : List Byte) : P x := by
  induction hn : x.length using Nat.strong_induction_on generalizing x with
  | _ n ih =>
    obtain ⟨r, y, hr, hl, rfl⟩ | ⟨r, y, hr, hl, rfl⟩ | ⟨hx, hl⟩ := run_cases x
    · exact saturated r y hr hl (ih y.length (by rw [← hn, List.length_append]; omega) y rfl)
    · exact zero r y hr hl (ih y.length (by rw [← hn, List.length_append, List.length_cons]; omega) y rfl)
    · exact last x hx hl

/-! ### Fuel: any amount of at least the input's length gives the same result -/

theorem cobsEncodeFrom_fuel (x : List Byte) :
    ∀ f, x.length ≤ f → cobsEncodeFrom f x = cobsEncode x := by
  suffices h : ∀ n (x : List Byte), x.length ≤ n → ∀ f g, x.length ≤ f → x.length ≤ g →
      cobsEncodeFrom f x = cobsEncodeFrom g x from fun f hf => h x.length x le_rfl f x.length hf le_rfl
  intro n
  induction n with
  | zero =>
    intro x hx f g _ _
    obtain rfl : x = [] := by simpa using hx
    cases f <;> cases g <;> rfl
  | succ n ih =>
    intro x hx f g hf hg
    cases x with
    | nil => cases f <;> cases g <;> rfl
    | cons b x =>
      obtain ⟨f, rfl⟩ : ∃ k, f = k + 1 := ⟨f - 1, by simp only [List.length_cons] at hf; omega⟩
      obtain ⟨g, rfl⟩ : ∃ k, g = k + 1 := ⟨g - 1, by simp only [List.length_cons] at hg; omega⟩
      simp only [List.length_cons] at hx hf hg
      simp only [cobsEncodeFrom]
      split
      · have hd : ((b :: x).drop Config.maxRun).length ≤ x.length := by
          simp only [List.length_drop, List.length_cons, Config.maxRun]; omega
        rw [ih _ (by omega) f g (by omega) (by omega)]
      · have hd : ((b :: x).drop (runLength (b :: x))).length ≤ x.length + 1 := by
          simp only [List.length_drop, List.length_cons]; omega
        split
        · rfl
        · rename_i rest he
          rw [he, List.length_cons] at hd
          rw [ih _ (by omega) f g (by omega) (by omega)]
        · rfl

theorem closedRunsFrom_fuel (x : List Byte) :
    ∀ f, x.length ≤ f → closedRunsFrom f x = closedRuns x := by
  suffices h : ∀ n (x : List Byte), x.length ≤ n → ∀ f g, x.length ≤ f → x.length ≤ g →
      closedRunsFrom f x = closedRunsFrom g x from fun f hf => h x.length x le_rfl f x.length hf le_rfl
  intro n
  induction n with
  | zero =>
    intro x hx f g _ _
    obtain rfl : x = [] := by simpa using hx
    cases f <;> cases g <;> simp [closedRunsFrom, runLength, Config.maxRun]
  | succ n ih =>
    intro x hx f g hf hg
    cases x with
    | nil => cases f <;> cases g <;> simp [closedRunsFrom, runLength, Config.maxRun]
    | cons b x =>
      obtain ⟨f, rfl⟩ : ∃ k, f = k + 1 := ⟨f - 1, by simp only [List.length_cons] at hf; omega⟩
      obtain ⟨g, rfl⟩ : ∃ k, g = k + 1 := ⟨g - 1, by simp only [List.length_cons] at hg; omega⟩
      simp only [List.length_cons] at hx hf hg
      simp only [closedRunsFrom]
      split
      · have hd : ((b :: x).drop Config.maxRun).length ≤ x.length := by
          simp only [List.length_drop, List.length_cons, Config.maxRun]; omega
        rw [ih _ (by omega) f g (by omega) (by omega)]
      · have hd : ((b :: x).drop (runLength (b :: x))).length ≤ x.length + 1 := by
          simp only [List.length_drop, List.length_cons]; omega
        split
        · rfl
        · rename_i rest he
          rw [he, List.length_cons] at hd
          rw [ih _ (by omega) f g (by omega) (by omega)]

theorem openRunFrom_fuel (x : List Byte) :
    ∀ f, x.length ≤ f → openRunFrom f x = openRun x := by
  suffices h : ∀ n (x : List Byte), x.length ≤ n → ∀ f g, x.length ≤ f → x.length ≤ g →
      openRunFrom f x = openRunFrom g x from fun f hf => h x.length x le_rfl f x.length hf le_rfl
  intro n
  induction n with
  | zero =>
    intro x hx f g _ _
    obtain rfl : x = [] := by simpa using hx
    cases f <;> cases g <;> simp [openRunFrom, runLength, Config.maxRun]
  | succ n ih =>
    intro x hx f g hf hg
    cases x with
    | nil => cases f <;> cases g <;> simp [openRunFrom, runLength, Config.maxRun]
    | cons b x =>
      obtain ⟨f, rfl⟩ : ∃ k, f = k + 1 := ⟨f - 1, by simp only [List.length_cons] at hf; omega⟩
      obtain ⟨g, rfl⟩ : ∃ k, g = k + 1 := ⟨g - 1, by simp only [List.length_cons] at hg; omega⟩
      simp only [List.length_cons] at hx hf hg
      simp only [openRunFrom]
      split
      · have hd : ((b :: x).drop Config.maxRun).length ≤ x.length := by
          simp only [List.length_drop, List.length_cons, Config.maxRun]; omega
        rw [ih _ (by omega) f g (by omega) (by omega)]
      · have hd : ((b :: x).drop (runLength (b :: x))).length ≤ x.length + 1 := by
          simp only [List.length_drop, List.length_cons]; omega
        split
        · rfl
        · rename_i rest he
          rw [he, List.length_cons] at hd
          rw [ih _ (by omega) f g (by omega) (by omega)]

theorem cobsDecodeFrom_fuel (y : List Byte) :
    ∀ f, y.length ≤ f → cobsDecodeFrom f y = cobsDecode y := by
  suffices h : ∀ n (y : List Byte), y.length ≤ n → ∀ f g, y.length ≤ f → y.length ≤ g →
      cobsDecodeFrom f y = cobsDecodeFrom g y from fun f hf => h y.length y le_rfl f y.length hf le_rfl
  intro n
  induction n with
  | zero =>
    intro x hx f g _ _
    obtain rfl : x = [] := by simpa using hx
    cases f <;> cases g <;> rfl
  | succ n ih =>
    intro y hy f g hf hg
    cases y with
    | nil => cases f <;> cases g <;> rfl
    | cons l y =>
      obtain ⟨f, rfl⟩ : ∃ k, f = k + 1 := ⟨f - 1, by simp only [List.length_cons] at hf; omega⟩
      obtain ⟨g, rfl⟩ : ∃ k, g = k + 1 := ⟨g - 1, by simp only [List.length_cons] at hg; omega⟩
      simp only [List.length_cons] at hy hf hg
      have hd : (y.drop (l.toNat - 1)).length ≤ y.length := by simp
      simp only [cobsDecodeFrom]
      rw [ih (y.drop (l.toNat - 1)) (by omega) f g (by omega) (by omega)]

end Sys2Proof.Machine
end

