-- ==== Sys2Proof/Laws/Crc.lean ====
section
/-! SUPPORT. The CRC of a sequence, byte by byte at its end: the form in which the block computes it. -/

namespace Sys2Proof.Machine

@[simp] theorem crc_nil : crc [] = 0x0000#16 := rfl

/-- One more BYTE command folds one more byte (42_crc16.md R106). -/
theorem crc_snoc (m : List Byte) (b : Byte) : crc (m ++ [b]) = crcStep (crc m) b := by
  simp [crc, List.foldl_append]

/-- Iterations of the CRC loop add up. -/
theorem crcBits_add (j k : Nat) (c : Word) : crcBits (j + k) c = crcBits k (crcBits j c) := by
  induction j generalizing c with
  | zero => simp [crcBits]
  | succ j ih => rw [Nat.succ_add]; exact ih (crcBit c)

@[simp] theorem checksumBytes_length (c : Word) : (checksumBytes c).length = 2 := rfl

end Sys2Proof.Machine
end

