-- ==== Sys2Proof/Laws/Decode.lean ====
section
/-! SUPPORT. The fields of a joined word, and what the decoder reads from a word given by its fields. -/

namespace Sys2Proof

theorem joinBytes_toNat (h l : Byte) : (joinBytes h l).toNat = h.toNat * 256 + l.toNat := by
  have hl := l.isLt
  simp only [joinBytes, BitVec.toNat_append]
  rw [← Nat.shiftLeft_add_eq_or_of_lt hl, Nat.shiftLeft_eq]

theorem hiByte_toNat (w : Word) : (hiByte w).toNat = w.toNat / 256 := by
  have h := w.isLt
  simp only [hiByte, BitVec.extractLsb'_toNat, Nat.shiftRight_eq_div_pow]
  omega

theorem loByte_toNat (w : Word) : (loByte w).toNat = w.toNat % 256 := by
  simp [loByte]

@[simp] theorem hiByte_joinBytes (h l : Byte) : hiByte (joinBytes h l) = h := by
  have hl := l.isLt
  apply BitVec.eq_of_toNat_eq
  rw [hiByte_toNat, joinBytes_toNat]
  omega

@[simp] theorem loByte_joinBytes (h l : Byte) : loByte (joinBytes h l) = l := by
  have hl := l.isLt
  apply BitVec.eq_of_toNat_eq
  rw [loByte_toNat, joinBytes_toNat]
  omega

theorem joinBytes_hiByte_loByte (w : Word) : joinBytes (hiByte w) (loByte w) = w := by
  apply BitVec.eq_of_toNat_eq
  rw [joinBytes_toNat, hiByte_toNat, loByte_toNat]
  omega

/-- Every word is given by its two bytes. -/
theorem word_cases {P : Word → Prop} (h : ∀ hi lo, P (joinBytes hi lo)) (w : Word) : P w := by
  rw [← joinBytes_hiByte_loByte w]; exact h _ _

/-- The word of an opcode and a data byte, as a sum. -/
theorem joinBytes_eq_add (h l : Byte) : joinBytes h l = (h.setWidth 16) <<< 8 + l.setWidth 16 := by
  have hh := h.isLt
  have hl := l.isLt
  apply BitVec.eq_of_toNat_eq
  rw [joinBytes_toNat]
  simp only [BitVec.toNat_add, BitVec.toNat_shiftLeft, BitVec.toNat_setWidth, Nat.shiftLeft_eq]
  omega

/-- A word shifted down by 8 is its high byte. -/
theorem shift_eq_iff (w : Word) (k : Byte) : w >>> 8 = k.setWidth 16 ↔ hiByte w = k := by
  have hw := w.isLt
  have hk := k.isLt
  rw [← BitVec.toNat_inj, ← BitVec.toNat_inj, hiByte_toNat]
  simp only [BitVec.toNat_ushiftRight, BitVec.toNat_setWidth, Nat.shiftRight_eq_div_pow]
  omega

theorem decodeWord_nop (d : Byte) : decodeWord (joinBytes 0x00#8 d) = .ok (.nop d) := by
  simp [decodeWord]

theorem decodeWord_start (d : Byte) (h : startReserved d = 0#6) :
    decodeWord (joinBytes 0x01#8 d) = .ok (.start d) := by
  simp [decodeWord, h]

theorem decodeWord_reserved (d : Byte) (h : startReserved d ≠ 0#6) :
    decodeWord (joinBytes 0x01#8 d) = .error (.reservedField d) := by
  simp [decodeWord, h]

theorem decodeWord_byte (d : Byte) : decodeWord (joinBytes 0x02#8 d) = .ok (.byte d) := by
  simp [decodeWord]

theorem decodeWord_end (d : Byte) : decodeWord (joinBytes 0x03#8 d) = .ok (.endFrame d) := by
  simp [decodeWord]

theorem decodeWord_sreset (d : Byte) : decodeWord (joinBytes 0x04#8 d) = .ok (.sreset d) := by
  simp [decodeWord]

theorem decodeWord_illegal (h d : Byte) (hh : 5 ≤ h.toNat) :
    decodeWord (joinBytes h d) = .error (.illegalOpcode h) := by
  have ne : ∀ k : Byte, k.toNat < 5 → h ≠ k := fun k hk e => by subst e; omega
  simp [decodeWord, ne 0x00#8 (by decide), ne 0x01#8 (by decide), ne 0x02#8 (by decide), ne 0x03#8 (by decide),
    ne 0x04#8 (by decide)]

/-- The six kinds of command word (30_encoding.md R71, R77). -/
theorem opcode_cases (h : Byte) :
    h = 0x00#8 ∨ h = 0x01#8 ∨ h = 0x02#8 ∨ h = 0x03#8 ∨ h = 0x04#8 ∨ 5 ≤ h.toNat := by
  by_cases hh : 5 ≤ h.toNat
  · simp [hh]
  · have : h.toNat = 0 ∨ h.toNat = 1 ∨ h.toNat = 2 ∨ h.toNat = 3 ∨ h.toNat = 4 := by omega
    simp only [← BitVec.toNat_inj]
    simpa [hh] using this

/-- The images the decoder reads as Init (41_messages.md R91). -/
theorem decodeMessage_init (n p : Byte) : decodeMessage (initMsgBytes n p) = .ok (.initMessage n p) := rfl

/-- The images the decoder reads as SetLeds (41_messages.md R92). -/
theorem decodeMessage_setLeds (o n : Byte) (cs : List Byte) :
    decodeMessage (setLedsMsgBytes o n cs) = .ok (.setLedsMessage o n cs) := rfl

end Sys2Proof
end

