-- ==== Sys2Proof/Laws/State.lean ====
section
/-! SUPPORT. One lemma per field of State per named update, true by rfl: no later proof unfolds a record update. -/

namespace Sys2Proof.Machine.State

variable (s : State)

@[simp] theorem emit_mode (x : List Byte) : (s.emit x).mode = s.mode := rfl
@[simp] theorem emit_crcEn (x : List Byte) : (s.emit x).crcEn = s.crcEn := rfl
@[simp] theorem emit_termEn (x : List Byte) : (s.emit x).termEn = s.termEn := rfl
@[simp] theorem emit_crc (x : List Byte) : (s.emit x).crc = s.crc := rfl
@[simp] theorem emit_run (x : List Byte) : (s.emit x).run = s.run := rfl
@[simp] theorem emit_lastZero (x : List Byte) : (s.emit x).lastZero = s.lastZero := rfl
@[simp] theorem emit_err (x : List Byte) : (s.emit x).err = s.err := rfl
@[simp] theorem emit_cause (x : List Byte) : (s.emit x).cause = s.cause := rfl
@[simp] theorem emit_out (x : List Byte) : (s.emit x).out = s.out ++ x := rfl
@[simp] theorem emit_pending (x : List Byte) : (s.emit x).pending = s.pending := rfl
@[simp] theorem emit_reads (x : List Byte) : (s.emit x).reads = s.reads := rfl

@[simp] theorem setCrc_mode (c : Word) : (s.setCrc c).mode = s.mode := rfl
@[simp] theorem setCrc_crcEn (c : Word) : (s.setCrc c).crcEn = s.crcEn := rfl
@[simp] theorem setCrc_termEn (c : Word) : (s.setCrc c).termEn = s.termEn := rfl
@[simp] theorem setCrc_crc (c : Word) : (s.setCrc c).crc = c := rfl
@[simp] theorem setCrc_run (c : Word) : (s.setCrc c).run = s.run := rfl
@[simp] theorem setCrc_lastZero (c : Word) : (s.setCrc c).lastZero = s.lastZero := rfl
@[simp] theorem setCrc_err (c : Word) : (s.setCrc c).err = s.err := rfl
@[simp] theorem setCrc_cause (c : Word) : (s.setCrc c).cause = s.cause := rfl
@[simp] theorem setCrc_out (c : Word) : (s.setCrc c).out = s.out := rfl
@[simp] theorem setCrc_pending (c : Word) : (s.setCrc c).pending = s.pending := rfl
@[simp] theorem setCrc_reads (c : Word) : (s.setCrc c).reads = s.reads := rfl

@[simp] theorem setRun_mode (r : List Byte) (z : Bool) : (s.setRun r z).mode = s.mode := rfl
@[simp] theorem setRun_crcEn (r : List Byte) (z : Bool) : (s.setRun r z).crcEn = s.crcEn := rfl
@[simp] theorem setRun_termEn (r : List Byte) (z : Bool) : (s.setRun r z).termEn = s.termEn := rfl
@[simp] theorem setRun_crc (r : List Byte) (z : Bool) : (s.setRun r z).crc = s.crc := rfl
@[simp] theorem setRun_run (r : List Byte) (z : Bool) : (s.setRun r z).run = r := rfl
@[simp] theorem setRun_lastZero (r : List Byte) (z : Bool) : (s.setRun r z).lastZero = z := rfl
@[simp] theorem setRun_err (r : List Byte) (z : Bool) : (s.setRun r z).err = s.err := rfl
@[simp] theorem setRun_cause (r : List Byte) (z : Bool) : (s.setRun r z).cause = s.cause := rfl
@[simp] theorem setRun_out (r : List Byte) (z : Bool) : (s.setRun r z).out = s.out := rfl
@[simp] theorem setRun_pending (r : List Byte) (z : Bool) : (s.setRun r z).pending = s.pending := rfl
@[simp] theorem setRun_reads (r : List Byte) (z : Bool) : (s.setRun r z).reads = s.reads := rfl

@[simp] theorem setMode_mode (m : Mode) : (s.setMode m).mode = m := rfl
@[simp] theorem setMode_crcEn (m : Mode) : (s.setMode m).crcEn = s.crcEn := rfl
@[simp] theorem setMode_termEn (m : Mode) : (s.setMode m).termEn = s.termEn := rfl
@[simp] theorem setMode_crc (m : Mode) : (s.setMode m).crc = s.crc := rfl
@[simp] theorem setMode_run (m : Mode) : (s.setMode m).run = s.run := rfl
@[simp] theorem setMode_lastZero (m : Mode) : (s.setMode m).lastZero = s.lastZero := rfl
@[simp] theorem setMode_err (m : Mode) : (s.setMode m).err = s.err := rfl
@[simp] theorem setMode_cause (m : Mode) : (s.setMode m).cause = s.cause := rfl
@[simp] theorem setMode_out (m : Mode) : (s.setMode m).out = s.out := rfl
@[simp] theorem setMode_pending (m : Mode) : (s.setMode m).pending = s.pending := rfl
@[simp] theorem setMode_reads (m : Mode) : (s.setMode m).reads = s.reads := rfl

@[simp] theorem setPending_mode (p : List HostAction) : (s.setPending p).mode = s.mode := rfl
@[simp] theorem setPending_crcEn (p : List HostAction) : (s.setPending p).crcEn = s.crcEn := rfl
@[simp] theorem setPending_termEn (p : List HostAction) : (s.setPending p).termEn = s.termEn := rfl
@[simp] theorem setPending_crc (p : List HostAction) : (s.setPending p).crc = s.crc := rfl
@[simp] theorem setPending_run (p : List HostAction) : (s.setPending p).run = s.run := rfl
@[simp] theorem setPending_lastZero (p : List HostAction) : (s.setPending p).lastZero = s.lastZero := rfl
@[simp] theorem setPending_err (p : List HostAction) : (s.setPending p).err = s.err := rfl
@[simp] theorem setPending_cause (p : List HostAction) : (s.setPending p).cause = s.cause := rfl
@[simp] theorem setPending_out (p : List HostAction) : (s.setPending p).out = s.out := rfl
@[simp] theorem setPending_pending (p : List HostAction) : (s.setPending p).pending = p := rfl
@[simp] theorem setPending_reads (p : List HostAction) : (s.setPending p).reads = s.reads := rfl

@[simp] theorem recordRead_mode (r : ViewRead) : (s.recordRead r).mode = s.mode := rfl
@[simp] theorem recordRead_crcEn (r : ViewRead) : (s.recordRead r).crcEn = s.crcEn := rfl
@[simp] theorem recordRead_termEn (r : ViewRead) : (s.recordRead r).termEn = s.termEn := rfl
@[simp] theorem recordRead_crc (r : ViewRead) : (s.recordRead r).crc = s.crc := rfl
@[simp] theorem recordRead_run (r : ViewRead) : (s.recordRead r).run = s.run := rfl
@[simp] theorem recordRead_lastZero (r : ViewRead) : (s.recordRead r).lastZero = s.lastZero := rfl
@[simp] theorem recordRead_err (r : ViewRead) : (s.recordRead r).err = s.err := rfl
@[simp] theorem recordRead_cause (r : ViewRead) : (s.recordRead r).cause = s.cause := rfl
@[simp] theorem recordRead_out (r : ViewRead) : (s.recordRead r).out = s.out := rfl
@[simp] theorem recordRead_pending (r : ViewRead) : (s.recordRead r).pending = s.pending := rfl
@[simp] theorem recordRead_reads (r : ViewRead) : (s.recordRead r).reads = s.reads ++ [r] := rfl

@[simp] theorem openFrame_mode (c t : Bool) : (s.openFrame c t).mode = .frame := rfl
@[simp] theorem openFrame_crcEn (c t : Bool) : (s.openFrame c t).crcEn = c := rfl
@[simp] theorem openFrame_termEn (c t : Bool) : (s.openFrame c t).termEn = t := rfl
@[simp] theorem openFrame_crc (c t : Bool) : (s.openFrame c t).crc = Config.crcInit := rfl
@[simp] theorem openFrame_run (c t : Bool) : (s.openFrame c t).run = [] := rfl
@[simp] theorem openFrame_lastZero (c t : Bool) : (s.openFrame c t).lastZero = false := rfl
@[simp] theorem openFrame_err (c t : Bool) : (s.openFrame c t).err = s.err := rfl
@[simp] theorem openFrame_cause (c t : Bool) : (s.openFrame c t).cause = s.cause := rfl
@[simp] theorem openFrame_out (c t : Bool) : (s.openFrame c t).out = s.out := rfl
@[simp] theorem openFrame_pending (c t : Bool) : (s.openFrame c t).pending = s.pending := rfl
@[simp] theorem openFrame_reads (c t : Bool) : (s.openFrame c t).reads = s.reads := rfl

@[simp] theorem clearBlock_mode : (s.clearBlock).mode = .idle := rfl
@[simp] theorem clearBlock_crcEn : (s.clearBlock).crcEn = false := rfl
@[simp] theorem clearBlock_termEn : (s.clearBlock).termEn = false := rfl
@[simp] theorem clearBlock_crc : (s.clearBlock).crc = 0x0000#16 := rfl
@[simp] theorem clearBlock_run : (s.clearBlock).run = [] := rfl
@[simp] theorem clearBlock_lastZero : (s.clearBlock).lastZero = false := rfl
@[simp] theorem clearBlock_err : (s.clearBlock).err = false := rfl
@[simp] theorem clearBlock_cause : (s.clearBlock).cause = .noError := rfl
@[simp] theorem clearBlock_out : (s.clearBlock).out = s.out := rfl
@[simp] theorem clearBlock_pending : (s.clearBlock).pending = s.pending := rfl
@[simp] theorem clearBlock_reads : (s.clearBlock).reads = s.reads := rfl

end Sys2Proof.Machine.State
end

