-- ==== Sys2Proof/Laws/Ops.lean ====
section
/-! SUPPORT. What each shared operation does, once: its cases, and the fields it leaves alone. -/

namespace Sys2Proof.Machine

variable (s : State)

/-! ### raise Error (60_exceptions.md R192) -/

/-- The first error is recorded. -/
theorem raiseError_first (c : Cause) (h : s.err = false) : raiseError c s = { s with err := true, cause := c } := by
  simp [raiseError, h]

/-- A later error changes nothing. -/
theorem raiseError_later (c : Cause) (h : s.err = true) : raiseError c s = s := by
  simp [raiseError, h]

@[simp] theorem raiseError_err (c : Cause) : (raiseError c s).err = true := by
  unfold raiseError; split <;> simp_all
theorem raiseError_cause_first (c : Cause) (h : s.err = false) : (raiseError c s).cause = c := by
  simp [raiseError_first s c h]
theorem raiseError_cause_later (c : Cause) (h : s.err = true) : (raiseError c s).cause = s.cause := by
  simp [raiseError_later s c h]
@[simp] theorem raiseError_mode (c : Cause) : (raiseError c s).mode = s.mode := by
  unfold raiseError; split <;> rfl
@[simp] theorem raiseError_crcEn (c : Cause) : (raiseError c s).crcEn = s.crcEn := by
  unfold raiseError; split <;> rfl
@[simp] theorem raiseError_termEn (c : Cause) : (raiseError c s).termEn = s.termEn := by
  unfold raiseError; split <;> rfl
@[simp] theorem raiseError_crc (c : Cause) : (raiseError c s).crc = s.crc := by
  unfold raiseError; split <;> rfl
@[simp] theorem raiseError_run (c : Cause) : (raiseError c s).run = s.run := by
  unfold raiseError; split <;> rfl
@[simp] theorem raiseError_lastZero (c : Cause) : (raiseError c s).lastZero = s.lastZero := by
  unfold raiseError; split <;> rfl
@[simp] theorem raiseError_out (c : Cause) : (raiseError c s).out = s.out := by
  unfold raiseError; split <;> rfl
@[simp] theorem raiseError_pending (c : Cause) : (raiseError c s).pending = s.pending := by
  unfold raiseError; split <;> rfl
@[simp] theorem raiseError_reads (c : Cause) : (raiseError c s).reads = s.reads := by
  unfold raiseError; split <;> rfl

/-! ### CobsPush (44_cobs.md R168) -/

/-- A zero byte closes the open run. -/
theorem cobsPush_zero : cobsPush 0x00#8 s = (s.emit (lengthByte s.run :: s.run)).setRun [] true := by
  simp [cobsPush]

/-- A non-zero byte that fills the run to 254 closes it as a saturated run. -/
theorem cobsPush_saturate (b : Byte) (hb : b ≠ 0x00#8) (h : s.run.length = 253) :
    cobsPush b s = (s.emit (0xFF#8 :: (s.run ++ [b]))).setRun [] false := by
  simp [cobsPush, hb, h]

/-- Any other non-zero byte joins the open run. -/
theorem cobsPush_extend (b : Byte) (hb : b ≠ 0x00#8) (h : s.run.length ≠ 253) :
    cobsPush b s = s.setRun (s.run ++ [b]) false := by
  have h' : (s.run ++ [b]).length ≠ Config.maxRun := by
    simp only [List.length_append, List.length_singleton, Config.maxRun]; omega
  simp only [cobsPush, hb, h', if_false]

@[simp] theorem cobsPush_mode (b : Byte) : (cobsPush b s).mode = s.mode := by
  unfold cobsPush; split; · rfl
  split <;> rfl
@[simp] theorem cobsPush_crcEn (b : Byte) : (cobsPush b s).crcEn = s.crcEn := by
  unfold cobsPush; split; · rfl
  split <;> rfl
@[simp] theorem cobsPush_termEn (b : Byte) : (cobsPush b s).termEn = s.termEn := by
  unfold cobsPush; split; · rfl
  split <;> rfl
@[simp] theorem cobsPush_crc (b : Byte) : (cobsPush b s).crc = s.crc := by
  unfold cobsPush; split; · rfl
  split <;> rfl
@[simp] theorem cobsPush_err (b : Byte) : (cobsPush b s).err = s.err := by
  unfold cobsPush; split; · rfl
  split <;> rfl
@[simp] theorem cobsPush_cause (b : Byte) : (cobsPush b s).cause = s.cause := by
  unfold cobsPush; split; · rfl
  split <;> rfl
@[simp] theorem cobsPush_pending (b : Byte) : (cobsPush b s).pending = s.pending := by
  unfold cobsPush; split; · rfl
  split <;> rfl
@[simp] theorem cobsPush_reads (b : Byte) : (cobsPush b s).reads = s.reads := by
  unfold cobsPush; split; · rfl
  split <;> rfl

/-- What a push can do: nothing is emitted and the run grows, or the run closes and is emitted. -/
theorem cobsPush_cases (b : Byte) :
    (b = 0x00#8 ∧ (cobsPush b s).out = s.out ++ lengthByte s.run :: s.run ∧ (cobsPush b s).run = [] ∧
      (cobsPush b s).lastZero = true) ∨
    (b ≠ 0x00#8 ∧ s.run.length = 253 ∧ (cobsPush b s).out = s.out ++ 0xFF#8 :: (s.run ++ [b]) ∧
      (cobsPush b s).run = [] ∧ (cobsPush b s).lastZero = false) ∨
    (b ≠ 0x00#8 ∧ s.run.length ≠ 253 ∧ (cobsPush b s).out = s.out ∧ (cobsPush b s).run = s.run ++ [b] ∧
      (cobsPush b s).lastZero = false) := by
  by_cases hb : b = 0x00#8
  · subst hb; simp [cobsPush_zero]
  · by_cases h : s.run.length = 253
    · simp [cobsPush_saturate s b hb h, hb, h]
    · simp [cobsPush_extend s b hb h, hb, h]

/-! ### CobsFinish (44_cobs.md R169) -/

/-- A non-empty open run is the last run. -/
theorem cobsFinish_run (h : s.run ≠ []) :
    cobsFinish s = (s.emit (lengthByte s.run :: s.run)).setRun [] false := by
  simp [cobsFinish, List.length_pos_iff.mpr h]

/-- After a zero byte the trailing empty run is emitted. -/
theorem cobsFinish_trailing (h : s.run = []) (hz : s.lastZero = true) :
    cobsFinish s = (s.emit [0x01#8]).setRun [] false := by
  simp [cobsFinish, h, hz]

/-- Otherwise nothing is emitted. -/
theorem cobsFinish_nothing (h : s.run = []) (hz : s.lastZero = false) : cobsFinish s = s.setRun [] false := by
  simp [cobsFinish, h, hz]

@[simp] theorem cobsFinish_mode : (cobsFinish s).mode = s.mode := by
  unfold cobsFinish; split; · rfl
  split <;> rfl
@[simp] theorem cobsFinish_crcEn : (cobsFinish s).crcEn = s.crcEn := by
  unfold cobsFinish; split; · rfl
  split <;> rfl
@[simp] theorem cobsFinish_termEn : (cobsFinish s).termEn = s.termEn := by
  unfold cobsFinish; split; · rfl
  split <;> rfl
@[simp] theorem cobsFinish_crc : (cobsFinish s).crc = s.crc := by
  unfold cobsFinish; split; · rfl
  split <;> rfl
@[simp] theorem cobsFinish_err : (cobsFinish s).err = s.err := by
  unfold cobsFinish; split; · rfl
  split <;> rfl
@[simp] theorem cobsFinish_cause : (cobsFinish s).cause = s.cause := by
  unfold cobsFinish; split; · rfl
  split <;> rfl
@[simp] theorem cobsFinish_pending : (cobsFinish s).pending = s.pending := by
  unfold cobsFinish; split; · rfl
  split <;> rfl
@[simp] theorem cobsFinish_reads : (cobsFinish s).reads = s.reads := by
  unfold cobsFinish; split; · rfl
  split <;> rfl
@[simp] theorem cobsFinish_lastZero : (cobsFinish s).lastZero = false := by
  unfold cobsFinish; split; · rfl
  split <;> rfl
@[simp] theorem cobsFinish_empties_run : (cobsFinish s).run = [] := by
  by_cases h : s.run = []
  · by_cases hz : s.lastZero = true
    · simp [cobsFinish_trailing s h hz]
    · simp [cobsFinish_nothing s h (by simpa using hz)]
  · simp [cobsFinish_run s h]

/-- What CobsFinish emits. -/
theorem cobsFinish_out :
    (cobsFinish s).out =
      s.out ++ if s.run ≠ [] then lengthByte s.run :: s.run else if s.lastZero then [0x01#8] else [] := by
  by_cases h : s.run = []
  · by_cases hz : s.lastZero = true
    · simp [cobsFinish_trailing s h hz, h, hz]
    · simp [cobsFinish_nothing s h (by simpa using hz), h, hz]
  · simp [cobsFinish_run s h, h]

/-! ### The other parts of END (43_framer_commands.md R124) -/

@[simp] theorem pushChecksum_mode : (pushChecksum s).mode = s.mode := by
  unfold pushChecksum; split <;> simp
@[simp] theorem pushChecksum_crcEn : (pushChecksum s).crcEn = s.crcEn := by
  unfold pushChecksum; split <;> simp
@[simp] theorem pushChecksum_termEn : (pushChecksum s).termEn = s.termEn := by
  unfold pushChecksum; split <;> simp
@[simp] theorem pushChecksum_crc : (pushChecksum s).crc = s.crc := by
  unfold pushChecksum; split <;> simp
@[simp] theorem pushChecksum_err : (pushChecksum s).err = s.err := by
  unfold pushChecksum; split <;> simp
@[simp] theorem pushChecksum_cause : (pushChecksum s).cause = s.cause := by
  unfold pushChecksum; split <;> simp
@[simp] theorem pushChecksum_pending : (pushChecksum s).pending = s.pending := by
  unfold pushChecksum; split <;> simp
@[simp] theorem pushChecksum_reads : (pushChecksum s).reads = s.reads := by
  unfold pushChecksum; split <;> simp

@[simp] theorem emitTerminator_mode : (emitTerminator s).mode = s.mode := by
  unfold emitTerminator; split <;> rfl
@[simp] theorem emitTerminator_crcEn : (emitTerminator s).crcEn = s.crcEn := by
  unfold emitTerminator; split <;> rfl
@[simp] theorem emitTerminator_termEn : (emitTerminator s).termEn = s.termEn := by
  unfold emitTerminator; split <;> rfl
@[simp] theorem emitTerminator_crc : (emitTerminator s).crc = s.crc := by
  unfold emitTerminator; split <;> rfl
@[simp] theorem emitTerminator_run : (emitTerminator s).run = s.run := by
  unfold emitTerminator; split <;> rfl
@[simp] theorem emitTerminator_lastZero : (emitTerminator s).lastZero = s.lastZero := by
  unfold emitTerminator; split <;> rfl
@[simp] theorem emitTerminator_err : (emitTerminator s).err = s.err := by
  unfold emitTerminator; split <;> rfl
@[simp] theorem emitTerminator_cause : (emitTerminator s).cause = s.cause := by
  unfold emitTerminator; split <;> rfl
@[simp] theorem emitTerminator_pending : (emitTerminator s).pending = s.pending := by
  unfold emitTerminator; split <;> rfl
@[simp] theorem emitTerminator_reads : (emitTerminator s).reads = s.reads := by
  unfold emitTerminator; split <;> rfl
@[simp] theorem emitTerminator_out : (emitTerminator s).out = s.out ++ if s.termEn then [0x00#8] else [] := by
  unfold emitTerminator; split <;> simp_all

/-! ### The host's side -/

@[simp] theorem feedMessage_pending (m : List Byte) : (feedMessage m s).pending = byteCommands m ++ s.pending := rfl
@[simp] theorem feedMessage_mode (m : List Byte) : (feedMessage m s).mode = s.mode := by
  rfl
@[simp] theorem feedMessage_crcEn (m : List Byte) : (feedMessage m s).crcEn = s.crcEn := by
  rfl
@[simp] theorem feedMessage_termEn (m : List Byte) : (feedMessage m s).termEn = s.termEn := by
  rfl
@[simp] theorem feedMessage_crc (m : List Byte) : (feedMessage m s).crc = s.crc := by
  rfl
@[simp] theorem feedMessage_run (m : List Byte) : (feedMessage m s).run = s.run := by
  rfl
@[simp] theorem feedMessage_lastZero (m : List Byte) : (feedMessage m s).lastZero = s.lastZero := by
  rfl
@[simp] theorem feedMessage_err (m : List Byte) : (feedMessage m s).err = s.err := by
  rfl
@[simp] theorem feedMessage_cause (m : List Byte) : (feedMessage m s).cause = s.cause := by
  rfl
@[simp] theorem feedMessage_out (m : List Byte) : (feedMessage m s).out = s.out := by
  rfl
@[simp] theorem feedMessage_reads (m : List Byte) : (feedMessage m s).reads = s.reads := by
  rfl

/-- A rejected message is fed, whatever the reason. -/
theorem onReject_message (r : Reject) (m : List Byte) (h : decodeMessage m = .error r) :
    onReject r (.message m) s = feedMessage m s := by
  cases r with
  | illegalOpcode opc =>
    unfold decodeMessage at h
    repeat' split at h
    all_goals simp at h
  | reservedField d =>
    unfold decodeMessage at h
    repeat' split at h
    all_goals simp at h
  | emptyMessage => rfl
  | unassignedCode c => rfl
  | wrongLength c => rfl

/-- OUT only grows at the end. -/
theorem emit_extends (x : List Byte) : s.out <+: (s.emit x).out := ⟨x, rfl⟩

theorem cobsPush_extends (b : Byte) : s.out <+: (cobsPush b s).out := by
  obtain ⟨-, h, -⟩ | ⟨-, -, h, -⟩ | ⟨-, -, h, -⟩ := cobsPush_cases s b <;> rw [h]
  · exact List.prefix_append _ _
  · exact List.prefix_append _ _

theorem cobsFinish_extends : s.out <+: (cobsFinish s).out := by
  rw [cobsFinish_out]; exact List.prefix_append _ _

theorem pushChecksum_extends : s.out <+: (pushChecksum s).out := by
  unfold pushChecksum
  split
  · exact (cobsPush_extends s _).trans (cobsPush_extends _ _)
  · exact List.prefix_refl _

/-! ### The COBS stage keeps its invariant (10_state.md R30 (a), (b), (d)) -/

/-- 10_state.md R30 (a), (b) and (d). -/
abbrev StageInv (r : List Byte) (z : Bool) : Prop :=
  (∀ b ∈ r, b ≠ 0x00#8) ∧ r.length ≤ 253 ∧ (z = true → r = [])

theorem cobsPush_keeps_stage (b : Byte) (h : StageInv s.run s.lastZero) :
    StageInv (cobsPush b s).run (cobsPush b s).lastZero := by
  obtain ⟨ha, hl, hz⟩ := h
  obtain ⟨-, -, h1, h2⟩ | ⟨-, -, -, h1, h2⟩ | ⟨hb, hn, -, h1, h2⟩ := cobsPush_cases s b
  · simp [StageInv, h1, h2]
  · simp [StageInv, h1, h2]
  · refine ⟨?_, ?_, ?_⟩
    · rw [h1]
      intro c hc
      rcases List.mem_append.mp hc with hc | hc
      · exact ha c hc
      · simp only [List.mem_singleton] at hc; exact hc ▸ hb
    · rw [h1, List.length_append]; simp only [List.length_singleton]; omega
    · simp [h2]

end Sys2Proof.Machine
end

