-- ==== Sys2Proof/Laws/Step.lean ====
section
/-! SUPPORT. What exec and step answer: every instruction and every action has a next state, and step is the meaning of
the host's next action. -/

namespace Sys2Proof.Machine

variable (s : State)

/-! ### The meanings, by what they check -/

theorem execStart_reserved (d : Byte) (h : startReserved d ≠ 0#6) :
    exec (.start d) s = .next (raiseError .reservedField s) := by
  simp [exec, execStart, startIsReserved, h]

theorem execStart_busy (d : Byte) (h : startReserved d = 0#6) (hm : s.mode = .frame) :
    exec (.start d) s = .next (raiseError .sequence s) := by
  simp [exec, execStart, startIsReserved, h, hm]

theorem execStart_opens (d : Byte) (h : startReserved d = 0#6) (hm : s.mode = .idle) :
    exec (.start d) s = .next (s.openFrame (startCrcFlag d) (startTermFlag d)) := by
  simp [exec, execStart, startIsReserved, h, hm]

theorem execByte_idle (d : Byte) (hm : s.mode = .idle) : exec (.byte d) s = .next (raiseError .sequence s) := by
  simp [exec, execByte, hm]

theorem execByte_frame (d : Byte) (hm : s.mode = .frame) :
    exec (.byte d) s = .next (cobsPush d (s.setCrc (crcStep s.crc d))) := by
  simp [exec, execByte, hm]

theorem execEnd_idle (d : Byte) (hm : s.mode = .idle) : exec (.endFrame d) s = .next (raiseError .sequence s) := by
  simp [exec, execEnd, hm]

theorem execEnd_frame (d : Byte) (hm : s.mode = .frame) :
    exec (.endFrame d) s = .next ((emitTerminator (cobsFinish (pushChecksum s))).setMode .idle) := by
  simp [exec, execEnd, hm]

/-- No meaning stops the machine (60_exceptions.md R190). -/
theorem exec_next (i : Instr) : ∃ t, exec i s = .next t := by
  cases i with
  | nop d => exact ⟨_, rfl⟩
  | start d =>
    by_cases h : startReserved d = 0#6
    · cases hm : s.mode with
      | idle => exact ⟨_, execStart_opens s d h hm⟩
      | frame => exact ⟨_, execStart_busy s d h hm⟩
    · exact ⟨_, execStart_reserved s d h⟩
  | byte d =>
    cases hm : s.mode with
    | idle => exact ⟨_, execByte_idle s d hm⟩
    | frame => exact ⟨_, execByte_frame s d hm⟩
  | endFrame d =>
    cases hm : s.mode with
    | idle => exact ⟨_, execEnd_idle s d hm⟩
    | frame => exact ⟨_, execEnd_frame s d hm⟩
  | sreset d => exact ⟨_, rfl⟩
  | initMessage n p => exact ⟨_, rfl⟩
  | setLedsMessage o n cs => exact ⟨_, rfl⟩

/-! ### step, by the host's next action -/

theorem take_nothing (h : s.pending = []) : take s = none := by
  simp [take, h]

theorem step_perform (a : HostAction) (rest : List HostAction) (h : s.pending = a :: rest) :
    step s = perform a (s.setPending rest) := by
  simp [step, take, h]

/-- A word the decoder accepts is executed. -/
theorem step_word (w : Word) (i : Instr) (rest : List HostAction) (h : s.pending = .issue (.word w) :: rest)
    (hd : decodeWord w = .ok i) : step s = exec i (s.setPending rest) := by
  simp [step_perform s _ rest h, perform, decode, hd]

/-- A word the decoder rejects records its error. -/
theorem step_rejected (w : Word) (r : Reject) (rest : List HostAction) (h : s.pending = .issue (.word w) :: rest)
    (hd : decodeWord w = .error r) : step s = .next (onReject r (.word w) (s.setPending rest)) := by
  simp [step_perform s _ rest h, perform, decode, hd]

/-- The words of one opcode, as the step sees them (43_framer_commands.md R120). -/
theorem step_word_cases (hi lo : Byte) (rest : List HostAction)
    (h : s.pending = .issue (.word (joinBytes hi lo)) :: rest) :
    (hi = 0x00#8 ∧ step s = exec (.nop lo) (s.setPending rest)) ∨
    (hi = 0x01#8 ∧ step s = exec (.start lo) (s.setPending rest)) ∨
    (hi = 0x02#8 ∧ step s = exec (.byte lo) (s.setPending rest)) ∨
    (hi = 0x03#8 ∧ step s = exec (.endFrame lo) (s.setPending rest)) ∨
    (hi = 0x04#8 ∧ step s = exec (.sreset lo) (s.setPending rest)) ∨
    (5 ≤ hi.toNat ∧ step s = .next (raiseError .illegalOpcode (s.setPending rest))) := by
  obtain rfl | rfl | rfl | rfl | rfl | hh := opcode_cases hi
  · exact .inl ⟨rfl, step_word s _ _ rest h (decodeWord_nop lo)⟩
  · refine .inr (.inl ⟨rfl, ?_⟩)
    by_cases hr : startReserved lo = 0#6
    · exact step_word s _ _ rest h (decodeWord_start lo hr)
    · rw [step_rejected s _ _ rest h (decodeWord_reserved lo hr), execStart_reserved _ lo hr]; rfl
  · exact .inr (.inr (.inl ⟨rfl, step_word s _ _ rest h (decodeWord_byte lo)⟩))
  · exact .inr (.inr (.inr (.inl ⟨rfl, step_word s _ _ rest h (decodeWord_end lo)⟩)))
  · exact .inr (.inr (.inr (.inr (.inl ⟨rfl, step_word s _ _ rest h (decodeWord_sreset lo)⟩))))
  · exact .inr (.inr (.inr (.inr (.inr ⟨hh, step_rejected s _ _ rest h (decodeWord_illegal hi lo hh)⟩))))

end Sys2Proof.Machine
end

