-- ==== Sys2Proof/Laws/Inversion.lean ====
section
/-! SUPPORT. What one step on a command word can do, said once: it is erroneous and only the error is recorded, or it is
one of the five commands in a mode that allows it. Claims over all steps are case analyses of this one lemma. -/

namespace Sys2Proof.Machine

/-- The opcode of a word given by its fields, as Safety.lean writes it. -/
theorem opcode_joinBytes (h l k : Byte) : joinBytes h l >>> 8 = k.setWidth 16 ↔ h = k := by
  rw [shift_eq_iff, hiByte_joinBytes]

theorem opcode_toNat (h l : Byte) : (joinBytes h l >>> 8).toNat = h.toNat := by
  rw [(opcode_joinBytes h l h).2 rfl]; simp; omega

theorem reserved_joinBytes (l : Byte) : joinBytes 0x01#8 l &&& 0x00FC#16 ≠ 0#16 ↔ startReserved l ≠ 0#6 := by
  revert l; decide

/-- `errorOf` (60_exceptions.md R193, R194) on a word given by its fields. -/
theorem errorOf_joinBytes (m : Mode) (h l : Byte) :
    errorOf m (joinBytes h l) =
      if 5 ≤ h.toNat then some .illegalOpcode
      else if h = 1#8 ∧ startReserved l ≠ 0#6 then some .reservedField
      else if h = 1#8 ∧ m = .frame then some .sequence
      else if (h = 2#8 ∨ h = 3#8) ∧ m = .idle then some .sequence
      else none := by
  have e1 := opcode_joinBytes h l 1#8
  have e2 := opcode_joinBytes h l 2#8
  have e3 := opcode_joinBytes h l 3#8
  rw [show (1#8 : Byte).setWidth 16 = 1#16 by decide] at e1
  rw [show (2#8 : Byte).setWidth 16 = 2#16 by decide] at e2
  rw [show (3#8 : Byte).setWidth 16 = 3#16 by decide] at e3
  unfold errorOf
  simp only [opcode_toNat, e1, e2, e3]
  by_cases h1 : h = 1#8
  · subst h1; simp only [reserved_joinBytes, true_and]
  · simp only [h1, false_and, if_false]

variable (s : State)

/-- Every step on a command word (43_framer_commands.md R120). -/
theorem step_word_inversion (h l : Byte) (rest : List HostAction)
    (hp : s.pending = .issue (.word (joinBytes h l)) :: rest) :
    (∃ c, errorOf s.mode (joinBytes h l) = some c ∧ step s = .next (raiseError c (s.setPending rest))) ∨
    (errorOf s.mode (joinBytes h l) = none ∧
      ((h = 0#8 ∧ step s = .next (s.setPending rest)) ∨
       (h = 1#8 ∧ startReserved l = 0#6 ∧ s.mode = .idle ∧
         step s = .next ((s.setPending rest).openFrame (startCrcFlag l) (startTermFlag l))) ∨
       (h = 2#8 ∧ s.mode = .frame ∧
         step s = .next (cobsPush l ((s.setPending rest).setCrc (crcStep s.crc l)))) ∨
       (h = 3#8 ∧ s.mode = .frame ∧
         step s = .next ((emitTerminator (cobsFinish (pushChecksum (s.setPending rest)))).setMode .idle)) ∨
       (h = 4#8 ∧ step s = .next (s.setPending rest).clearBlock))) := by
  rw [errorOf_joinBytes]
  obtain ⟨rfl, e⟩ | ⟨rfl, e⟩ | ⟨rfl, e⟩ | ⟨rfl, e⟩ | ⟨rfl, e⟩ | ⟨hh, e⟩ := step_word_cases s h l rest hp
  · exact .inr ⟨by simp, .inl ⟨rfl, e⟩⟩
  · by_cases hr : startReserved l = 0#6
    · cases hm : s.mode with
      | idle => exact .inr ⟨by simp [hr], .inr (.inl ⟨rfl, hr, rfl, by rw [e, execStart_opens _ _ hr (by simpa using hm)]⟩)⟩
      | frame => exact .inl ⟨.sequence, by simp [hr], by rw [e, execStart_busy _ _ hr (by simpa using hm)]⟩
    · exact .inl ⟨.reservedField, by simp [hr], by rw [e, execStart_reserved _ _ hr]⟩
  · cases hm : s.mode with
    | idle => exact .inl ⟨.sequence, by simp, by rw [e, execByte_idle _ _ (by simpa using hm)]⟩
    | frame => exact .inr ⟨by simp, .inr (.inr (.inl ⟨rfl, rfl, by rw [e, execByte_frame _ _ (by simpa using hm)]; simp⟩))⟩
  · cases hm : s.mode with
    | idle => exact .inl ⟨.sequence, by simp, by rw [e, execEnd_idle _ _ (by simpa using hm)]⟩
    | frame => exact .inr ⟨by simp, .inr (.inr (.inr (.inl ⟨rfl, rfl, by rw [e, execEnd_frame _ _ (by simpa using hm)]⟩)))⟩
  · exact .inr ⟨by simp, .inr (.inr (.inr (.inr ⟨rfl, e⟩)))⟩
  · exact .inl ⟨.illegalOpcode, by simp [hh], e⟩

end Sys2Proof.Machine
end

