-- ==== Sys2Proof/Laws/PerInstr.lean ====
section
/-! SUPPORT. Per instruction: the encoding of a well-formed instruction matches the mask and match of its row of
spec/opcode_table.json. -/

namespace Sys2Proof.Laws.TableRow

/-- A row's bits, mask and match. -/
structure Row where
  bits : Nat
  mask : Word
  pattern : Word
  deriving DecidableEq, Repr

/-- The row of each constructor, copied from spec/opcode_table.json. -/
def rowOf : Instr → Row
  | .nop _ => ⟨16, 0xFF00#16, 0x0000#16⟩
  | .start _ => ⟨16, 0xFFFC#16, 0x0100#16⟩
  | .byte _ => ⟨16, 0xFF00#16, 0x0200#16⟩
  | .endFrame _ => ⟨16, 0xFF00#16, 0x0300#16⟩
  | .sreset _ => ⟨16, 0xFF00#16, 0x0400#16⟩
  | .initMessage _ _ => ⟨8, 0x00FF#16, 0x0000#16⟩
  | .setLedsMessage _ _ _ => ⟨8, 0x00FF#16, 0x0001#16⟩

/-- The bits of an image that a row of the given width constrains: the word, or the first byte. -/
def rowBits : Image → Nat × Word
  | .word w => (16, w)
  | .message [] => (0, 0#16)
  | .message (b :: _) => (8, b.setWidth 16)

/-- The encoding has the row's width, and its bits under the row's mask are the row's match. -/
def Statement (i : Instr) : Prop :=
  i.wellFormed = true →
    (rowBits (encode i)).1 = (rowOf i).bits ∧ (rowBits (encode i)).2 &&& (rowOf i).mask = (rowOf i).pattern

/-- A word under the mask of its opcode byte. -/
theorem joinBytes_and_opcode (h l : Byte) : joinBytes h l &&& 0xFF00#16 = joinBytes h 0x00#8 := by
  have e : (0xFF00#16 : Word) = (0xFF#8 : Byte) ++ (0x00#8 : Byte) := by decide
  have f : h &&& 0xFF#8 = h := by
    rw [show (0xFF#8 : Byte) = BitVec.allOnes 8 by decide, BitVec.and_allOnes]
  rw [joinBytes, e, BitVec.and_append, f]
  simp [joinBytes]

theorem nop (d : Byte) : Statement (.nop d) := fun _ => ⟨rfl, joinBytes_and_opcode _ d⟩

theorem start (d : Byte) : Statement (.start d) := by
  revert d; unfold Statement; decide +revert

theorem byte (d : Byte) : Statement (.byte d) := fun _ => ⟨rfl, joinBytes_and_opcode _ d⟩

theorem endFrame (d : Byte) : Statement (.endFrame d) := fun _ => ⟨rfl, joinBytes_and_opcode _ d⟩

theorem sreset (d : Byte) : Statement (.sreset d) := fun _ => ⟨rfl, joinBytes_and_opcode _ d⟩

theorem initMessage (n p : Byte) : Statement (.initMessage n p) :=
  fun _ => ⟨rfl, show (0x00#8 : Byte).setWidth 16 &&& 0x00FF#16 = 0x0000#16 by decide⟩

theorem setLedsMessage (o n : Byte) (cs : List Byte) : Statement (.setLedsMessage o n cs) :=
  fun _ => ⟨rfl, show (0x01#8 : Byte).setWidth 16 &&& 0x00FF#16 = 0x0001#16 by decide⟩

end Sys2Proof.Laws.TableRow
end

