-- ==== Sys2Proof/Tests/Slice0.lean ====
section
/-! SUPPORT. Small tests, whose expected results are the tables of 95_test_vectors.md (V-CRC, V-COBS, V-PKT, V-CMD, W1 to
W7) or words written from the encodings of 30_encoding.md and 41_messages.md; and, for each obligation with hypotheses,
named witnesses: concrete data that meet all the hypotheses of a clause together. -/

namespace Sys2Proof.Tests

open Sys2Proof.Machine

/-! ### Helpers -/

/-- The state after reset with the given actions on the port. -/
def onPort (actions : List HostAction) : State := { State.reset with pending := actions }

/-- An open frame with the given flags, run and port. -/
def inFrame (crcEn termEn : Bool) (run : List Byte) (actions : List HostAction) : State :=
  { State.reset with mode := .frame, crcEn := crcEn, termEn := termEn, run := run, pending := actions }

/-- STATUS 0x000E: a SEQUENCE error in IDLE. -/
def withError (actions : List HostAction) : State :=
  { State.reset with err := true, cause := .sequence, pending := actions }

/-- The next state of an outcome, if it is one. -/
def nextState (o : Host.Outcome State Fault Refusal) : Option State :=
  match o with
  | .next t => some t
  | .fault _ => none
  | .refused _ => none

/-- STATUS and what a step has added to OUT. -/
def statusAndEmitted (s : State) : Option (Word × List Byte) :=
  (nextState (step s)).map fun t => (statusView t, t.out.drop s.out.length)

/-- A run of `n` bytes 0x11, as in V-CMD 11 and V-PKT. -/
def elevens (n : Nat) : List Byte := List.replicate n 0x11#8

theorem elevens_length (n : Nat) : (elevens n).length = n := by simp only [elevens, List.length_replicate]

theorem elevens_nonzero (n : Nat) : ∀ b ∈ elevens n, b ≠ 0x00#8 := by
  intro b h; rw [List.eq_of_mem_replicate h]; decide

/-! ### WellFormed (30_encoding.md R72) -/

theorem test_wellFormed_refuses_start_bit2 : Instr.wellFormed (.start 0x04#8) = false := by decide
theorem test_wellFormed_refuses_start_bit7 : Instr.wellFormed (.start 0x83#8) = false := by decide
theorem test_wellFormed_accepts_start_flags : Instr.wellFormed (.start 0x03#8) = true := by decide
theorem test_wellFormed_accepts_the_rest :
    Instr.wellFormed (.nop 0xFF#8) = true ∧ Instr.wellFormed (.byte 0x00#8) = true ∧
      Instr.wellFormed (.endFrame 0xFF#8) = true ∧ Instr.wellFormed (.sreset 0xAA#8) = true ∧
      Instr.wellFormed (.initMessage 0#8 0#8) = true ∧ Instr.wellFormed (.setLedsMessage 2#8 2#8 [0xFF#8]) = true := by
  decide

/-! ### Decoding, words written bit by bit from the encoding column of the opcode table -/

theorem test_decode_nop : decode (.word 0b0000000011111111#16) = .ok (.nop 0xFF#8) := by decide
theorem test_decode_start_crc : decode (.word 0b0000000100000001#16) = .ok (.start 0x01#8) := by decide
theorem test_decode_start_term : decode (.word 0b0000000100000010#16) = .ok (.start 0x02#8) := by decide
theorem test_decode_byte : decode (.word 0b0000001001000001#16) = .ok (.byte 0x41#8) := by decide
theorem test_decode_end : decode (.word 0b0000001100000000#16) = .ok (.endFrame 0x00#8) := by decide
theorem test_decode_sreset : decode (.word 0b0000010010101010#16) = .ok (.sreset 0xAA#8) := by decide
/-- W3. -/
theorem test_decode_init_message : decode (.message [0#8, 10#8, 5#8]) = .ok (.initMessage 10#8 5#8) := by decide
/-- W4. -/
theorem test_decode_setLeds_message :
    decode (.message [1#8, 2#8, 2#8, 0xFF#8, 0x00#8, 0x00#8, 0x00#8, 0xFF#8, 0x00#8]) =
      .ok (.setLedsMessage 2#8 2#8 [0xFF#8, 0x00#8, 0x00#8, 0x00#8, 0xFF#8, 0x00#8]) := by decide
/-- R92's corner case: an empty colour list. -/
theorem test_decode_setLeds_without_colours :
    decode (.message [1#8, 2#8, 2#8]) = .ok (.setLedsMessage 2#8 2#8 []) := by decide
theorem test_decode_reserved_start :
    decode (.word 0b0000000100000100#16) = .error (.reservedField 0x04#8) ∧
      decode (.word 0b0000000111111111#16) = .error (.reservedField 0xFF#8) := by decide
theorem test_decode_illegal :
    decode (.word 0b0000010100000000#16) = .error (.illegalOpcode 0x05#8) ∧
      decode (.word 0b1111111111111111#16) = .error (.illegalOpcode 0xFF#8) := by decide
theorem test_decode_unknown_messages :
    decode (.message []) = .error .emptyMessage ∧ decode (.message [2#8, 0#8, 0#8]) = .error (.unassignedCode 2#8) ∧
      decode (.message [0#8, 1#8]) = .error (.wrongLength 0#8) := by decide

/-! ### The table's numbering (notes/assumptions/10.md) -/

theorem test_tableWord_commands :
    decodeTableWord 16 0x0103 = some (.start 0x03#8) ∧ decodeTableWord 16 0x02FF = some (.byte 0xFF#8) ∧
      decodeTableWord 16 0x0104 = none := by decide
theorem test_tableWord_messages :
    decodeTableWord 8 0x00 = some (.initMessage 0#8 0#8) ∧
      decodeTableWord 24 0x050A00 = some (.initMessage 0x0A#8 0x05#8) ∧
      decodeTableWord 8 0x01 = some (.setLedsMessage 0#8 0#8 []) ∧
      decodeTableWord 32 0xFF020201 = some (.setLedsMessage 2#8 2#8 [0xFF#8]) := by decide
theorem test_withFetchWord_runs_first :
    nextState (step (State.reset.withFetchWord 16 0x0103)) = nextState (exec (.start 0x03#8) State.reset) := by decide

/-! ### One step of each instruction (V-CMD) -/

/-- V-CMD 2. -/
theorem test_nop_ignores_data : nextState (step (onPort [command 0x00FF#16])) = some State.reset := by decide
/-- V-CMD 3. -/
theorem test_start_opens : statusAndEmitted (onPort [command 0x0103#16]) = some (0x0031#16, []) := by decide
/-- V-CMD 7. -/
theorem test_start_reserved_before_sequence :
    statusAndEmitted (inFrame true true [0x01#8] [command 0x0104#16]) = some (0x013B#16, []) := by decide
/-- V-CMD 10. -/
theorem test_byte_joins_run :
    (nextState (step (inFrame true true [] [command 0x0241#16]))).map (fun t => (statusView t, t.crc, t.run, t.out)) =
      some (0x0131#16, 0x30C0#16, [0x41#8], []) := by decide
/-- V-CMD 12. -/
theorem test_byte_zero_closes_run :
    (nextState (step (inFrame true true [0x11#8, 0x22#8] [command 0x0200#16]))).map
        (fun t => (t.run, t.lastZero, t.out)) =
      some ([], true, [0x03#8, 0x11#8, 0x22#8]) := by decide
/-- V-CMD 14. -/
theorem test_end_of_empty_frame :
    statusAndEmitted (inFrame true true [] [command 0x0300#16]) =
      some (0x0030#16, [0x01#8, 0x01#8, 0x01#8, 0x00#8]) := by decide
/-- V-CMD 17. -/
theorem test_end_without_terminator :
    (nextState (step { inFrame true false [0x01#8] [command 0x0300#16] with crc := 0xC0C1#16 })).map
        (fun t => (statusView t, t.crc, t.out)) =
      some (0x0010#16, 0xC0C1#16, [0x04#8, 0x01#8, 0xC0#8, 0xC1#8]) := by decide
/-- V-CMD 18. -/
theorem test_sreset_clears_error : nextState (step (withError [command 0x0400#16])) = some State.reset := by decide
/-- V-CMD 19: the open run is lost. -/
theorem test_sreset_loses_open_run :
    nextState (step (inFrame true true [0x11#8, 0x22#8] [command 0x04AA#16])) = some State.reset := by decide
/-- V-CMD 8 and 13. -/
theorem test_sequence_errors :
    statusAndEmitted (onPort [command 0x0241#16]) = some (0x000E#16, []) ∧
      statusAndEmitted (onPort [command 0x0300#16]) = some (0x000E#16, []) := by decide
/-- V-CMD 20 and 21. -/
theorem test_illegal_and_first_cause :
    statusAndEmitted (onPort [command 0x0900#16]) = some (0x0006#16, []) ∧
      statusAndEmitted (withError [command 0x0900#16]) = some (0x000E#16, []) := by decide
/-- The opening section of 41_messages.md, on W3: the message's bytes as BYTE commands. -/
theorem test_init_message_feeds_bytes :
    nextState (exec (.initMessage 10#8 5#8) (onPort [command 0x0300#16])) =
      some (onPort [command 0x0200#16, command 0x020A#16, command 0x0205#16, command 0x0300#16]) := by decide
theorem test_setLeds_message_feeds_bytes :
    nextState (exec (.setLedsMessage 2#8 1#8 [0xFF#8]) State.reset) =
      some (onPort [command 0x0201#16, command 0x0202#16, command 0x0201#16, command 0x02FF#16]) := by decide
/-- 10_state.md R34 and R36 on V-CMD 3's state. -/
theorem test_view_reads :
    (nextState (step (inFrame true true [] [.readStatus]))).map (fun t => t.reads) = some [.status 0x0031#16] ∧
      (nextState (step { inFrame true true [] [.readCrc] with crc := 0xA3C6#16 })).map (fun t => t.reads) =
        some [.crc 0xA3C6#16] := by decide

/-! ### CRC (V-CRC-1, V-CRC-2) -/

theorem test_crcStep :
    crcStep 0x0000#16 0x01#8 = 0xC0C1#16 ∧ crcStep 0x0000#16 0x80#8 = 0xA001#16 ∧
      crcStep 0xFFFF#16 0xFF#8 = 0x00FF#16 ∧ crcStep 0x1234#16 0x56#8 = 0xE993#16 := by decide
set_option maxRecDepth 8000 in
/-- W1. -/
theorem test_crc_check_value :
    crc [0x31#8, 0x32#8, 0x33#8, 0x34#8, 0x35#8, 0x36#8, 0x37#8, 0x38#8, 0x39#8] = 0xBB3D#16 := by decide
set_option maxRecDepth 8000 in
theorem test_crc_of_messages :
    crc [0x00#8, 0x0A#8, 0x05#8] = 0xA3C6#16 ∧ crc [] = 0x0000#16 ∧ crc [0xFF#8, 0xFF#8] = 0xB001#16 := by decide

/-! ### COBS (V-COBS-1) and packets (V-PKT, W3, W6) -/

theorem test_cobsEncode :
    cobsEncode [] = [] ∧ cobsEncode [0x00#8] = [0x01#8, 0x01#8] ∧ cobsEncode [0x01#8] = [0x02#8, 0x01#8] ∧
      cobsEncode [0x01#8, 0x00#8] = [0x02#8, 0x01#8, 0x01#8] ∧
      cobsEncode [0x11#8, 0x22#8, 0x00#8, 0x33#8] = [0x03#8, 0x11#8, 0x22#8, 0x02#8, 0x33#8] := by decide
theorem test_cobsDecode :
    cobsDecode [0x02#8, 0x11#8, 0x01#8, 0x01#8, 0x01#8] = some [0x11#8, 0x00#8, 0x00#8, 0x00#8] ∧
      cobsDecode [0x00#8] = none ∧ cobsDecode [0x03#8, 0x11#8] = none := by decide
set_option maxRecDepth 8000 in
theorem test_buildPacket :
    buildPacket [] = [0x01#8, 0x01#8, 0x01#8, 0x00#8] ∧
      buildPacket [0x0C#8] = [0x03#8, 0x0C#8, 0x05#8, 0x01#8, 0x00#8] ∧
      buildPacket [0x01#8, 0xC1#8] = [0x03#8, 0x01#8, 0xC1#8, 0x02#8, 0xC0#8, 0x00#8] ∧
      buildPacket [0x00#8, 0x0A#8, 0x05#8] = [0x01#8, 0x05#8, 0x0A#8, 0x05#8, 0xA3#8, 0xC6#8, 0x00#8] := by decide
set_option maxRecDepth 16000 in
/-- V-COBS-2: the cap wins over the zero byte at distance 254, and nothing follows a final saturated run. -/
theorem test_cobsEncode_at_the_cap :
    cobsEncode (elevens 254 ++ [0x00#8]) = 0xFF#8 :: (elevens 254 ++ [0x01#8, 0x01#8]) ∧
      cobsEncode (elevens 254) = 0xFF#8 :: elevens 254 ∧ cobsEncode (elevens 253) = 0xFE#8 :: elevens 253 := by decide
set_option maxRecDepth 8000 in
/-- W6; and the stream of P6, whose first frame is too short for a checksum. -/
theorem test_receiver :
    receiveFrame [0x01#8, 0x05#8, 0x0A#8, 0x05#8, 0xA3#8, 0xC6#8] = some [0x00#8, 0x0A#8, 0x05#8] ∧
      receiveStream [0x02#8, 0x11#8, 0x00#8, 0x04#8, 0x01#8, 0xC0#8, 0xC1#8, 0x00#8] = [[0x01#8]] := by decide
/-- The words of P1 from the line `INIT 10, 5`, and the two lines of `SYNC`. -/
theorem test_assemble :
    assembleLines ["INIT 10, 5".toList] = some [0x0103#16, 0x0200#16, 0x020A#16, 0x0205#16, 0x0300#16] ∧
      assembleLines ["SYNC".toList] = some [0x0102#16, 0x0300#16] := by decide

/-! ### Witnesses: the hypotheses of the obligations can be met -/

theorem witness_NopChangesNothing : (onPort [command 0x00FF#16]).pending = [command (0x0000#16 + (0xFF#8).setWidth 16)] := by
  decide

theorem witness_StartOpensFrame_opens : (0x03#8 : Byte) &&& 0xFC#8 = 0x00#8 ∧ (onPort []).mode = .idle := by decide
theorem witness_StartOpensFrame_busy :
    (0x03#8 : Byte) &&& 0xFC#8 = 0x00#8 ∧ (inFrame true true [] []).mode = .frame := by decide
theorem witness_StartOpensFrame_reserved :
    (0x04#8 : Byte) &&& 0xFC#8 ≠ 0x00#8 ∧ (0xFF#8 : Byte) &&& 0xFC#8 ≠ 0x00#8 := by decide
theorem witness_StartOpensFrame_word :
    (onPort [command 0x0103#16]).mode = .idle ∧
      (onPort [command 0x0103#16]).pending = [command (0x0100#16 + (if true then 1#16 else 0#16) +
        (if true then 2#16 else 0#16))] := by decide
theorem witness_StartOpensFrame_reserved_word :
    (0x04#8 : Byte) &&& 0xFC#8 ≠ 0x00#8 ∧
      (onPort [command 0x0104#16]).pending = [command (0x0100#16 + (0x04#8).setWidth 16)] := by decide

theorem witness_ByteFoldsCrcAndPushes_zero :
    (inFrame true true (elevens 253) []).mode = .frame ∧ (inFrame true true (elevens 253) []).run.length ≤ 253 ∧
      (0x00#8 : Byte) = 0x00#8 := by simp [inFrame, elevens_length]
theorem witness_ByteFoldsCrcAndPushes_saturates :
    (inFrame true true (elevens 253) []).mode = .frame ∧ (0x11#8 : Byte) ≠ 0x00#8 ∧
      (inFrame true true (elevens 253) []).run.length = 253 := by simp [inFrame, elevens_length]
theorem witness_ByteFoldsCrcAndPushes_extends :
    (inFrame true true (elevens 252) []).mode = .frame ∧ (0xFF#8 : Byte) ≠ 0x00#8 ∧
      (inFrame true true (elevens 252) []).run.length ≠ 253 := by simp [inFrame, elevens_length]
theorem witness_ByteFoldsCrcAndPushes_idle : (onPort []).mode = .idle := by decide
theorem witness_ByteFoldsCrcAndPushes_word :
    (onPort [command 0x0241#16]).pending = [command (0x0200#16 + (0x41#8).setWidth 16)] := by decide

theorem witness_EndClosesFrame_frame :
    (inFrame true true [0x0A#8] []).mode = .frame ∧ (inFrame true true [0x0A#8] []).run.length ≤ 253 ∧
      pushChecksum (inFrame true true [0x0A#8] []) =
        (if (inFrame true true [0x0A#8] []).crcEn then
          cobsPush ((inFrame true true [0x0A#8] []).crc.setWidth 8)
            (cobsPush (((inFrame true true [0x0A#8] []).crc >>> 8).setWidth 8) (inFrame true true [0x0A#8] []))
        else inFrame true true [0x0A#8] []) := by decide
/-- The longest run of the first clause, without a checksum. -/
theorem witness_EndClosesFrame_longest_run :
    (inFrame false true (elevens 253) []).mode = .frame ∧ (inFrame false true (elevens 253) []).run.length ≤ 253 ∧
      (inFrame false true (elevens 253) []).crcEn = false := by simp [inFrame, elevens_length]
theorem witness_EndClosesFrame_idle : (onPort []).mode = .idle := by decide
theorem witness_EndClosesFrame_word :
    (onPort [command 0x03FF#16]).pending = [command (0x0300#16 + (0xFF#8).setWidth 16)] := by decide
theorem witness_EndClosesFrame_empty :
    (inFrame true true [] []).mode = .frame ∧ (inFrame true true [] []).run = [] ∧
      (inFrame true true [] []).lastZero = false ∧ (inFrame true true [] []).crc = 0x0000#16 := by decide

theorem witness_SresetClearsBlock_word :
    (onPort [command 0x04AA#16]).pending = [command (0x0400#16 + (0xAA#8).setWidth 16)] := by decide

theorem witness_IllegalOpcodeOnlyRecordsError_low :
    5 ≤ (0x05#8 : Byte).toNat ∧
      (onPort [command 0x0500#16]).pending = [command ((0x05#8).setWidth 16 <<< 8 + (0x00#8).setWidth 16)] := by decide
theorem witness_IllegalOpcodeOnlyRecordsError_high :
    5 ≤ (0xFF#8 : Byte).toNat ∧
      (onPort [command 0xFFFF#16]).pending = [command ((0xFF#8).setWidth 16 <<< 8 + (0xFF#8).setWidth 16)] := by decide

theorem witness_AnyMessageIsFedAsGiven :
    (onPort [.issue (.message [])]).pending = .issue (.message []) :: [] ∧
      (onPort [.issue (.message [0x02#8, 0x07#8])]).pending = .issue (.message [0x02#8, 0x07#8]) :: [] := by decide

theorem witness_StepRunsDecodedInstruction_word :
    (onPort [command 0x0103#16]).pending = .issue (.word 0x0103#16) :: [] ∧
      decode (.word 0x0103#16) = .ok (.start 0x03#8) := by decide
theorem witness_StepRunsDecodedInstruction_message :
    (onPort [.issue (.message [0#8, 10#8, 5#8])]).pending = .issue (.message [0#8, 10#8, 5#8]) :: [] ∧
      decode (.message [0#8, 10#8, 5#8]) = .ok (.initMessage 10#8 5#8) := by decide
theorem witness_StepRunsDecodedInstruction_table : decodeTableWord 8 0x01 = some (.setLedsMessage 0#8 0#8 []) := by decide

theorem witness_IdleWithoutAction : State.reset.pending = [] := by decide

theorem witness_PortIsTakenInOrder :
    (onPort [.readStatus]).pending = .readStatus :: [] ∧ (onPort [.readCrc]).pending = .readCrc :: [] ∧
      (onPort [.hardReset]).pending = .hardReset :: [] ∧
      (onPort [.issue (.message [0x01#8])]).pending = .issue (.message [0x01#8]) :: [] ∧
      (onPort [command 0x0000#16, .readCrc]).pending = command 0x0000#16 :: [.readCrc] := by decide

theorem witness_WordClassesByRange :
    0x0103 < 65536 ∧ (0x03#8 : Byte) = BitVec.ofNat 8 (0x0103 % 256) ∧ 0x0104 < 65536 ∧
      (0x04#8 : Byte) = BitVec.ofNat 8 (0x0104 % 256) ∧ 0x0500 < 65536 ∧
      (0x00#8 : Byte) = BitVec.ofNat 8 (0x0500 % 256) ∧ 0xFFFF < 65536 ∧
      (0xFF#8 : Byte) = BitVec.ofNat 8 (0xFFFF % 256) := by decide

theorem witness_DecodeOfEncode :
    Instr.wellFormed (.start 0x03#8) = true ∧ Instr.wellFormed (.nop 0xFF#8) = true ∧
      Instr.wellFormed (.setLedsMessage 0xFF#8 0xFF#8 (elevens 4)) = true := by decide

theorem witness_EncodeOfDecode :
    decode (.word 0x0103#16) = .ok (.start 0x03#8) ∧ decode (.message [1#8, 2#8, 2#8]) = .ok (.setLedsMessage 2#8 2#8 []) := by
  decide

theorem witness_DataOfNopEndSresetIsIgnored :
    ((0x00#8 : Byte) = 0x00#8 ∨ (0x00#8 : Byte) = 0x03#8 ∨ (0x00#8 : Byte) = 0x04#8) ∧
      ((0x03#8 : Byte) = 0x00#8 ∨ (0x03#8 : Byte) = 0x03#8 ∨ (0x03#8 : Byte) = 0x04#8) ∧
      ((0x04#8 : Byte) = 0x00#8 ∨ (0x04#8 : Byte) = 0x03#8 ∨ (0x04#8 : Byte) = 0x04#8) := by decide

theorem witness_ErroneousCommandsAndPrecedence_illegal :
    (onPort [command 0x0500#16]).pending = command 0x0500#16 :: [] ∧
      errorOf (onPort [command 0x0500#16]).mode 0x0500#16 = some .illegalOpcode := by decide
theorem witness_ErroneousCommandsAndPrecedence_reserved :
    (inFrame true true [] [command 0x0104#16]).pending = command 0x0104#16 :: [] ∧
      errorOf (inFrame true true [] [command 0x0104#16]).mode 0x0104#16 = some .reservedField := by decide
theorem witness_ErroneousCommandsAndPrecedence_sequence :
    (inFrame true true [] [command 0x0103#16]).pending = command 0x0103#16 :: [] ∧
      errorOf (inFrame true true [] [command 0x0103#16]).mode 0x0103#16 = some .sequence ∧
      (onPort [command 0x0241#16]).pending = command 0x0241#16 :: [] ∧
      errorOf (onPort [command 0x0241#16]).mode 0x0241#16 = some .sequence := by decide
theorem witness_ErroneousCommandsAndPrecedence_none :
    (withError [command 0x0400#16]).pending = command 0x0400#16 :: [] ∧
      errorOf (withError [command 0x0400#16]).mode 0x0400#16 = none ∧
      (withError [command 0x0000#16]).pending = command 0x0000#16 :: [] ∧
      errorOf (withError [command 0x0000#16]).mode 0x0000#16 = none := by decide

theorem witness_ErrorIsStickyAndFirstCauseIsKept :
    ((onPort []).err = false → (onPort []).cause = .noError) ∧
      (nextState (step (onPort []))).map (fun t => t.err) = some false := by decide

theorem witness_ErrorReportDoesNotChangeBehaviour :
    sameButError (onPort [command 0x0300#16]) (withError [command 0x0300#16]) ∧
      onPort [command 0x0300#16] ≠ withError [command 0x0300#16] := by decide

/-- An open frame with two bytes in its run meets R30: for StepKeepsRunInvariant, MachineNeverStops, CobsStageAfterStep and
BytesEmittedPerCommand. -/
theorem witness_Inv_frame : State.Inv (inFrame true true [0x11#8, 0x22#8] [command 0x0200#16]) := by decide
theorem witness_Inv_idle_with_error : State.Inv (withError [.hardReset]) := by decide
theorem witness_StepKeepsRunInvariant : State.Inv (inFrame true true [0x11#8, 0x22#8] [command 0x0300#16]) := by decide
theorem witness_MachineNeverStops : State.Inv (inFrame false true [0x11#8] [command 0x0900#16, .hardReset]) := by decide
theorem witness_CobsStageAfterStep : State.Inv (inFrame true true [] [command 0x0241#16]) := by decide
/-- The longest run R30 allows. -/
theorem witness_Inv_longest_run : State.Inv (inFrame true true (elevens 253) [command 0x0211#16]) :=
  ⟨elevens_nonzero 253, Nat.le_of_eq (elevens_length 253), by decide, by decide, by decide⟩

theorem witness_HardResetSetsEveryElement : (withError [.hardReset]).pending = .hardReset :: [] := by decide

theorem witness_CrcRegisterIsCrcOfBytesHeard : (onPort [command 0x0103#16]).crc = crc [] := by decide

theorem witness_OutputOnlyGrows :
    (onPort [command 0x0103#16]).pending = command 0x0103#16 :: [] ∧
      (0x0103#16 : Word) >>> 8 ≠ 2#16 ∧ (0x0103#16 : Word) >>> 8 ≠ 3#16 := by decide

theorem witness_BytesEmittedPerCommand_zero :
    State.Inv (inFrame true true [0x11#8] [command 0x0200#16]) ∧
      (inFrame true true [0x11#8] [command 0x0200#16]).pending = command 0x0200#16 :: [] ∧
      errorOf .frame 0x0200#16 = none ∧ (0x0200#16 : Word) >>> 8 = 2#16 ∧ (0x0200#16 : Word).setWidth 8 = 0x00#8 := by
  decide
theorem witness_BytesEmittedPerCommand_saturates :
    State.Inv (inFrame true true (elevens 253) [command 0x0211#16]) ∧
      (inFrame true true (elevens 253) [command 0x0211#16]).pending = command 0x0211#16 :: [] ∧
      errorOf .frame 0x0211#16 = none ∧ (0x0211#16 : Word) >>> 8 = 2#16 ∧ (0x0211#16 : Word).setWidth 8 ≠ 0x00#8 ∧
      (inFrame true true (elevens 253) [command 0x0211#16]).run.length = 253 :=
  ⟨witness_Inv_longest_run, rfl, by decide, by decide, by decide, by simp [inFrame, elevens_length]⟩
theorem witness_BytesEmittedPerCommand_joins :
    State.Inv (inFrame true true [0x11#8] [command 0x0211#16]) ∧
      errorOf .frame 0x0211#16 = none ∧ (0x0211#16 : Word).setWidth 8 ≠ 0x00#8 ∧
      (inFrame true true [0x11#8] [command 0x0211#16]).run.length ≠ 253 := by decide
/-- The state of V-PKT's 253 bytes 0x11: CRC = 0xFBB6, and END emits 258 bytes. -/
theorem witness_BytesEmittedPerCommand_end :
    State.Inv { inFrame true true (elevens 253) [command 0x0300#16] with crc := 0xFBB6#16 } ∧
      errorOf .frame 0x0300#16 = none ∧ (0x0300#16 : Word) >>> 8 = 3#16 ∧ (0xFBB6#16 : Word) >>> 8 ≠ 0#16 ∧
      (elevens 253).length = 253 :=
  ⟨⟨elevens_nonzero 253, Nat.le_of_eq (elevens_length 253), by decide, by decide, by decide⟩, by decide, by decide,
    by decide, elevens_length 253⟩
theorem witness_BytesEmittedPerCommand_nothing :
    State.Inv (onPort [command 0x0300#16]) ∧ errorOf (onPort [command 0x0300#16]).mode 0x0300#16 ≠ none := by decide

theorem witness_CommandFrames :
    (0x11#8 : Byte) ≠ 0x00#8 ∧ (inFrame true true [0x11#8] []).run.length ≠ 253 ∧
      (inFrame true true [0x11#8] []).mode = .frame := by decide

theorem witness_StatusViewLayout : (inFrame true true (elevens 253) []).run.length ≤ 253 := by simp [inFrame, elevens_length]

theorem witness_ViewReadsHaveNoSideEffect :
    (onPort [.readStatus, .readStatus]).pending = .readStatus :: .readStatus :: [] ∧
      (onPort [.readCrc, .readCrc]).pending = .readCrc :: .readCrc :: [] := by decide

theorem witness_CobsEncodeLoop_saturated : (∀ b ∈ elevens 254, b ≠ 0x00#8) ∧ (elevens 254).length = 254 :=
  ⟨elevens_nonzero 254, elevens_length 254⟩
theorem witness_CobsEncodeLoop_zero_ended :
    ((∀ b ∈ elevens 253, b ≠ 0x00#8) ∧ (elevens 253).length ≤ 253) ∧
      (∀ b ∈ elevens 0, b ≠ 0x00#8) ∧ (elevens 0).length ≤ 253 :=
  ⟨⟨elevens_nonzero 253, Nat.le_of_eq (elevens_length 253)⟩, by decide, by decide⟩
theorem witness_CobsEncodeLoop_last :
    ((∀ b ∈ elevens 1, b ≠ 0x00#8) ∧ 1 ≤ (elevens 1).length ∧ (elevens 1).length ≤ 253) ∧
      (∀ b ∈ elevens 253, b ≠ 0x00#8) ∧ 1 ≤ (elevens 253).length ∧ (elevens 253).length ≤ 253 :=
  ⟨by decide, elevens_nonzero 253, by simp [elevens_length], by simp [elevens_length]⟩

theorem witness_CobsEncodingIsRunsUnderLengthBytes : ([0x00#8, 0x11#8] : List Byte) ≠ [] := by decide

theorem witness_StreamingStageComputesCobsEncode : State.reset.run = [] ∧ State.reset.lastZero = false := by decide

theorem witness_CobsDecodeLoop_error :
    ((0x00#8 : Byte) = 0x00#8 ∨ (0x00#8 : Byte).toNat > ([] : List Byte).length + 1) ∧
      ((0x03#8 : Byte) = 0x00#8 ∨ (0x03#8 : Byte).toNat > ([0x11#8] : List Byte).length + 1) := by decide
theorem witness_CobsDecodeLoop_run :
    ((0x01#8 : Byte) ≠ 0x00#8 ∧ ([] : List Byte).length = (0x01#8 : Byte).toNat - 1) ∧
      (0xFF#8 : Byte) ≠ 0x00#8 ∧ (elevens 254).length = (0xFF#8 : Byte).toNat - 1 := by simp [elevens_length]

theorem witness_CobsEncodeLength : ([0x11#8] : List Byte) ≠ [] ∧ 0x00#8 ∉ ([0x11#8] : List Byte) := by decide

theorem witness_CobsDecodeIsNotInjective :
    (elevens 254).length = 254 ∧ cobsDecode [] ≠ none ∧ cobsDecode [0x02#8, 0x11#8] ≠ none :=
  ⟨by simp [elevens_length], by decide, by decide⟩

theorem witness_FrameSequenceComputesFrameOut :
    (onPort [command 0x0103#16, command 0x020A#16, command 0x0300#16]).mode = .idle ∧
      (onPort [command 0x0103#16, command 0x020A#16, command 0x0300#16]).pending =
        command (0x0100#16 + (if true then 1#16 else 0#16) + (if true then 2#16 else 0#16))
          :: (([0x0A#8] : List Byte).map (fun b => command (0x0200#16 + b.setWidth 16))
            ++ command (0x0300#16 + (0x00#8).setWidth 16) :: []) := by decide

/-- One action of each kind that may stand in an open frame, a BYTE word among them. -/
def interleaved : List HostAction :=
  [command 0x0241#16, .readStatus, .readCrc, command 0x0000#16, command 0x0103#16, command 0x0104#16, command 0x0900#16]

theorem witness_InterleavedActionsLeaveFrameBytes :
    (onPort (command 0x0103#16 :: (interleaved ++ [command 0x0300#16]))).mode = .idle ∧
      (∀ a ∈ interleaved, harmlessInFrame a = true ∨ ∃ b : Byte, a = command (0x0200#16 + b.setWidth 16)) ∧
      (onPort (command 0x0103#16 :: (interleaved ++ [command 0x0300#16]))).pending =
        command (0x0100#16 + (if true then 1#16 else 0#16) + (if true then 2#16 else 0#16))
          :: (interleaved ++ command (0x0300#16 + (0x00#8).setWidth 16) :: []) := by
  refine ⟨by decide, fun a ha => ?_, by decide⟩
  obtain rfl | h : a = command 0x0241#16 ∨ harmlessInFrame a = true := by revert a; decide
  · exact .inr ⟨0x41#8, by decide⟩
  · exact .inl h
theorem test_harmlessInFrame_excludes_end_and_sreset :
    harmlessInFrame (command 0x0300#16) = false ∧ harmlessInFrame (command 0x0400#16) = false ∧
      harmlessInFrame .hardReset = false := by decide

theorem witness_OpenFrameShowsOnlyClosedRuns :
    (onPort [command 0x0100#16, command 0x0200#16]).mode = .idle ∧
      (onPort [command 0x0100#16, command 0x0200#16]).pending =
        command (0x0100#16 + (if false then 1#16 else 0#16) + (if false then 2#16 else 0#16))
          :: (([0x00#8] : List Byte).map (fun b => command (0x0200#16 + b.setWidth 16)) ++ []) := by decide

theorem witness_SendingAMessageBuildsItsPacket :
    (onPort [command 0x0103#16, .issue (.message [0#8, 10#8, 5#8]), command 0x0300#16]).mode = .idle ∧
      (onPort [command 0x0103#16, .issue (.message [0#8, 10#8, 5#8]), command 0x0300#16]).pending =
        command 0x0103#16 :: .issue (.message [0#8, 10#8, 5#8]) :: command 0x0300#16 :: [] := by decide

theorem witness_PseudoCommandsExpandAndRun :
    (onPort ((assembleLine (.init 10#8 5#8)).map command)).mode = .idle ∧
      (onPort ((assembleLine (.init 10#8 5#8)).map command)).pending =
        (assembleLine (.init 10#8 5#8)).map command ++ [] := by decide

/-- An open frame whose host aborts it with `a`, then SYNC and SEND 01, as in P6. -/
def aborted (a : HostAction) : State :=
  inFrame true true [0x22#8]
    (a :: command 0x0102#16 :: command 0x0300#16 :: (assembleLine (.send [0x01#8])).map command)

theorem witness_ResynchronisationAfterAbort_sreset :
    (command 0x04AA#16 = .hardReset ∨ ∃ d : Byte, command 0x04AA#16 = command (0x0400#16 + d.setWidth 16)) ∧
      (aborted (command 0x04AA#16)).pending = command 0x04AA#16 :: command 0x0102#16 :: command 0x0300#16
        :: ((assembleLine (.send [0x01#8])).map command ++ []) :=
  ⟨.inr ⟨0xAA#8, by decide⟩, by decide⟩
theorem witness_ResynchronisationAfterAbort_reset :
    (HostAction.hardReset = .hardReset ∨ ∃ d : Byte, HostAction.hardReset = command (0x0400#16 + d.setWidth 16)) ∧
      (aborted .hardReset).pending = .hardReset :: command 0x0102#16 :: command 0x0300#16
        :: ((assembleLine (.send [0x01#8])).map command ++ []) :=
  ⟨.inl rfl, by decide⟩

end Sys2Proof.Tests
end

section
/-! Every step of the machine as one relation between the state before and the state after, from which the claims about
all steps (10_state.md R22 to R30) are case analyses. -/

namespace Sys2Proof.Machine

/-! ### The fields of a command word, as the claims write them -/

/-- A word's opcode, by a shift. -/
@[simp] theorem joinBytes_shift (h l : Byte) : joinBytes h l >>> 8 = h.setWidth 16 :=
  (opcode_joinBytes h l h).2 rfl

/-- A word's DATA, by truncation. -/
@[simp] theorem joinBytes_setWidth (h l : Byte) : (joinBytes h l).setWidth 8 = l :=
  BitVec.eq_of_toNat_eq (by rw [BitVec.toNat_setWidth, ← loByte_toNat, loByte_joinBytes])

/-- The low bits of a word are those of its DATA. -/
theorem joinBytes_getLsbD {i : Nat} (hi : i < 8) (h l : Byte) : (joinBytes h l).getLsbD i = l.getLsbD i := by
  conv_rhs => rw [← joinBytes_setWidth h l, BitVec.getLsbD_setWidth]
  simp only [hi, decide_true, Bool.true_and]

/-- START's flag C is bit 0 of its word (30_encoding.md R72). -/
@[simp] theorem joinBytes_getElem_zero (h l : Byte) : (joinBytes h l)[0] = startCrcFlag l :=
  joinBytes_getLsbD (by decide) h l

/-- START's flag T is bit 1 of its word (30_encoding.md R72). -/
@[simp] theorem joinBytes_getElem_one (h l : Byte) : (joinBytes h l)[1] = startTermFlag l :=
  joinBytes_getLsbD (by decide) h l

/-- An erroneous command has a cause to report (60_exceptions.md R193). -/
theorem errorOf_ne_noError {m : Mode} {w : Word} : errorOf m w ≠ some .noError := by
  unfold errorOf
  split_ifs <;> decide

/-- SRESET is legal in every mode (60_exceptions.md R193). -/
theorem opcode_ne_sreset_of_errorOf {m : Mode} {w : Word} {c : Cause} (h : errorOf m w = some c) : w >>> 8 ≠ 4#16 := by
  intro e
  simp [errorOf, e] at h

/-! ### What a step does, by the host's next action -/

/-- `StepTo s t`: the step from `s` answers `t`, with one constructor per action and per outcome of a command word. -/
inductive StepTo (s : State) : State → Prop
  | idle (hp : s.pending = []) : StepTo s s
  | message (m : List Byte) (rest : List HostAction) (hp : s.pending = .issue (.message m) :: rest) :
      StepTo s (feedMessage m (s.setPending rest))
  | readStatus (rest : List HostAction) (hp : s.pending = .readStatus :: rest) :
      StepTo s (readStatus (s.setPending rest))
  | readCrc (rest : List HostAction) (hp : s.pending = .readCrc :: rest) : StepTo s (readCrc (s.setPending rest))
  | hardReset (rest : List HostAction) (hp : s.pending = .hardReset :: rest) : StepTo s (s.setPending rest).clearBlock
  | error (w : Word) (c : Cause) (rest : List HostAction) (hp : s.pending = .issue (.word w) :: rest)
      (he : errorOf s.mode w = some c) : StepTo s (raiseError c (s.setPending rest))
  | nop (d : Byte) (rest : List HostAction) (hp : s.pending = .issue (.word (joinBytes 0x00#8 d)) :: rest)
      (he : errorOf s.mode (joinBytes 0x00#8 d) = none) : StepTo s (s.setPending rest)
  | start (d : Byte) (rest : List HostAction) (hp : s.pending = .issue (.word (joinBytes 0x01#8 d)) :: rest)
      (he : errorOf s.mode (joinBytes 0x01#8 d) = none) (hm : s.mode = .idle) :
      StepTo s ((s.setPending rest).openFrame (startCrcFlag d) (startTermFlag d))
  | byte (d : Byte) (rest : List HostAction) (hp : s.pending = .issue (.word (joinBytes 0x02#8 d)) :: rest)
      (he : errorOf s.mode (joinBytes 0x02#8 d) = none) (hm : s.mode = .frame) :
      StepTo s (cobsPush d ((s.setPending rest).setCrc (crcStep s.crc d)))
  | endFrame (d : Byte) (rest : List HostAction) (hp : s.pending = .issue (.word (joinBytes 0x03#8 d)) :: rest)
      (he : errorOf s.mode (joinBytes 0x03#8 d) = none) (hm : s.mode = .frame) :
      StepTo s ((emitTerminator (cobsFinish (pushChecksum (s.setPending rest)))).setMode .idle)
  | sreset (d : Byte) (rest : List HostAction) (hp : s.pending = .issue (.word (joinBytes 0x04#8 d)) :: rest)
      (he : errorOf s.mode (joinBytes 0x04#8 d) = none) : StepTo s (s.setPending rest).clearBlock

/-- With nothing pending the block is idle (10_state.md R20). -/
theorem step_idle (s : State) (hp : s.pending = []) : step s = .next s := by
  simp [step, take_nothing s hp, idle]

/-- A message the decoder reads is one of the two layouts, and its meaning feeds its bytes (41_messages.md R91, R92). -/
theorem exec_decodedMessage (s : State) {m : List Byte} {i : Instr} (h : decodeMessage m = .ok i) :
    exec i s = .next (feedMessage m s) := by
  unfold decodeMessage at h
  split at h
  · cases h
  · split_ifs at h with h0 h1
    · split at h <;> cases h
      subst h0; rfl
    · split at h <;> cases h
      subst h1; rfl

/-- Every message is fed as given, whether or not the decoder knows it (41_messages.md R90, R95). -/
theorem step_message (s : State) (m : List Byte) (rest : List HostAction)
    (hp : s.pending = .issue (.message m) :: rest) : step s = .next (feedMessage m (s.setPending rest)) := by
  rw [step_perform s _ rest hp, perform, decode]
  cases hd : decodeMessage m with
  | ok i => exact exec_decodedMessage _ hd
  | error r => exact congrArg _ (onReject_message _ r m hd)

/-- Every step answers a next state, and it is one of the cases of `StepTo`. -/
theorem step_stepTo (s : State) : ∃ t, step s = .next t ∧ StepTo s t := by
  cases hp : s.pending with
  | nil => exact ⟨s, step_idle s hp, .idle hp⟩
  | cons a rest =>
    cases a with
    | readStatus => exact ⟨_, step_perform s _ rest hp, .readStatus rest hp⟩
    | readCrc => exact ⟨_, step_perform s _ rest hp, .readCrc rest hp⟩
    | hardReset => exact ⟨_, step_perform s _ rest hp, .hardReset rest hp⟩
    | issue im =>
      cases im with
      | message m => exact ⟨_, step_message s m rest hp, .message m rest hp⟩
      | word w =>
        induction w using word_cases with
        | h hi lo =>
        obtain ⟨c, he, e⟩ | ⟨he, ⟨rfl, e⟩ | ⟨rfl, -, hm, e⟩ | ⟨rfl, hm, e⟩ | ⟨rfl, hm, e⟩ | ⟨rfl, e⟩⟩ :=
          step_word_inversion s hi lo rest hp
        · exact ⟨_, e, .error _ c rest hp he⟩
        · exact ⟨_, e, .nop lo rest hp he⟩
        · exact ⟨_, e, .start lo rest hp he hm⟩
        · exact ⟨_, e, .byte lo rest hp he hm⟩
        · exact ⟨_, e, .endFrame lo rest hp he hm⟩
        · exact ⟨_, e, .sreset lo rest hp he⟩

/-- A property of every `StepTo` pair holds of every step. -/
theorem step_of_stepTo {P : State → Prop} (s : State) (h : ∀ t, StepTo s t → P t) : ∃ t, step s = .next t ∧ P t := by
  obtain ⟨t, ht, hst⟩ := step_stepTo s
  exact ⟨t, ht, h t hst⟩

end Sys2Proof.Machine
end

section
/-! The invariants of 10_state.md R30 and the claims about each field after any step. -/

namespace Sys2Proof.Machine

/-! ### A view read only writes the host's record -/

@[simp] theorem readStatus_eq_recordRead (s : State) : readStatus s = s.recordRead (.status (statusView s)) := rfl
@[simp] theorem readCrc_eq_recordRead (s : State) : readCrc s = s.recordRead (.crc s.crc) := rfl

/-! ### R30 -/

theorem inv_clearBlock (s : State) : s.clearBlock.Inv := by simp [State.Inv]

/-- An error report keeps R30: it sets ERR together with a cause. -/
theorem inv_raiseError {c : Cause} (hc : c ≠ .noError) {s : State} (h : s.Inv) : (raiseError c s).Inv := by
  obtain ⟨hz, hl, hi, hr, he⟩ := h
  refine ⟨by simpa using hz, by simpa using hl, by simpa using hi, by simpa using hr, ?_⟩
  cases hs : s.err with
  | false => simp [raiseError_cause_first s c hs, hc]
  | true => rw [raiseError_later s c hs]; exact he

theorem inv_openFrame (c t : Bool) {s : State} (h : s.Inv) : (s.openFrame c t).Inv := by
  obtain ⟨-, -, -, -, he⟩ := h
  simpa [State.Inv] using he

/-- A push inside a frame keeps R30. -/
theorem inv_cobsPush (b : Byte) {s : State} (hm : s.mode = .frame) (h : s.Inv) : (cobsPush b s).Inv := by
  obtain ⟨hz, hl, -, hr, he⟩ := h
  obtain ⟨hz', hl', hr'⟩ := cobsPush_keeps_stage s b ⟨hz, hl, hr⟩
  exact ⟨hz', hl', by simp [hm], hr', by simpa using he⟩

/-- Closing a frame leaves the stage empty. -/
theorem inv_endFrame {s : State} (h : s.Inv) :
    ((emitTerminator (cobsFinish (pushChecksum s))).setMode .idle).Inv := by
  obtain ⟨-, -, -, -, he⟩ := h
  simpa [State.Inv] using he

/-- Every step keeps R30. -/
theorem StepTo.inv {s t : State} (h : StepTo s t) (hi : s.Inv) : t.Inv := by
  cases h with
  | idle _ | message _ _ _ | readStatus _ _ | readCrc _ _ | nop _ _ _ _ => exact hi
  | hardReset _ _ | sreset _ _ _ _ => exact inv_clearBlock _
  | error _ _ rest _ he => exact inv_raiseError (fun e => errorOf_ne_noError (e ▸ he)) (s := s.setPending rest) hi
  | start _ rest _ _ _ => exact inv_openFrame _ _ (s := s.setPending rest) hi
  | byte d rest _ _ hm => exact inv_cobsPush d (s := (s.setPending rest).setCrc (crcStep s.crc d)) hm hi
  | endFrame _ rest _ _ _ => exact inv_endFrame (s := s.setPending rest) hi

/-- Settles O22: R30 holds after every case of `StepTo`. -/
theorem stepKeepsRunInvariant : Obligations.StepKeepsRunInvariant :=
  fun s hi => step_of_stepTo s fun _ h => h.inv hi

/-- Settles O23: the reset state is a cleared block. -/
theorem resetMeetsRunInvariant : Obligations.ResetMeetsRunInvariant :=
  fun p => inv_clearBlock (State.reset.setPending p)

/-! ### Each field after any step -/

/-- Settles O20: only an erroneous word and the two resets write ERR and CAUSE. -/
theorem errorIsStickyAndFirstCauseIsKept : Obligations.ErrorIsStickyAndFirstCauseIsKept := by
  intro s
  refine step_of_stepTo s fun t h => ?_
  cases h with
  | idle hp | message _ _ hp | readStatus _ hp | readCrc _ hp | hardReset _ hp => simp [hp]
  | error w c rest hp he =>
    have hw := opcode_ne_sreset_of_errorOf he
    cases hs : s.err with
    | false => simp [hp, hw, he, raiseError_cause_first (s.setPending rest) c hs]
    | true => simp [hp, hw, he, raiseError_cause_later (s.setPending rest) c hs]
  | nop _ _ hp he | start _ _ hp he _ | byte _ _ hp he _ | endFrame _ _ hp he _ => simp [hp, he]
  | sreset _ _ hp _ => simp [hp]

/-- Settles O26: MODE is written by START, END and the two resets alone. -/
theorem modeAfterStep : Obligations.ModeAfterStep := by
  intro s
  refine step_of_stepTo s fun t h => ?_
  cases h with
  | idle hp | message _ _ hp | readStatus _ hp | readCrc _ hp | hardReset _ hp => simp [hp]
  | error _ _ _ hp he | nop _ _ hp he | sreset _ _ hp he => simp [hp, he]
  | start _ _ hp he _ | byte _ _ hp he _ | endFrame _ _ hp he _ => simp [hp, he]

/-- Settles O27: CRC_EN and TERM_EN are written by START and the two resets alone. -/
theorem frameFlagsAfterStep : Obligations.FrameFlagsAfterStep := by
  intro s
  refine step_of_stepTo s fun t h => ?_
  cases h with
  | idle hp | message _ _ hp | readStatus _ hp | readCrc _ hp | hardReset _ hp => simp [hp]
  | error _ _ _ hp he | nop _ _ hp he | sreset _ _ hp he => simp [hp, he]
  | start _ _ hp he _ | byte _ _ hp he _ | endFrame _ _ hp he _ => simp [hp, he]

/-- Settles O29: a BYTE folds its byte into CRC, START and the two resets clear it, and nothing else writes it. -/
theorem crcRegisterIsCrcOfBytesHeard : Obligations.CrcRegisterIsCrcOfBytesHeard := by
  refine ⟨fun s m hs => step_of_stepTo s fun t h => ?_, rfl⟩
  cases h with
  | idle hp | message _ _ hp | readStatus _ hp | readCrc _ hp | hardReset _ hp => simp [heard, hp, hs]
  | error _ _ _ hp he | nop _ _ hp he | endFrame _ _ hp he _ => simp [heard, hp, he, hs]
  | start _ _ hp he _ | sreset _ _ hp he => simp [heard, hp, he]
  | byte _ _ hp he _ => simp [heard, hp, he, hs, crc_snoc]

/-- Settles O30: a BYTE does what `cobsPush_cases` says, and END, START and the two resets empty the stage. -/
theorem cobsStageAfterStep : Obligations.CobsStageAfterStep := by
  intro s _
  refine step_of_stepTo s fun t h => ?_
  cases h with
  | idle hp | message _ _ hp | readStatus _ hp | readCrc _ hp | hardReset _ hp => simp [hp]
  | error _ _ _ hp he | nop _ _ hp he => simp [hp, he]
  | start _ _ hp he _ | endFrame _ _ hp he _ | sreset _ _ hp he => simp [hp, he]
  | byte d rest hp he _ =>
    obtain ⟨rfl, -, hr, hz⟩ | ⟨hb, hl, -, hr, hz⟩ | ⟨hb, hl, -, hr, hz⟩ :=
      cobsPush_cases ((s.setPending rest).setCrc (crcStep s.crc d)) d
    · simp [hp, he, hr, hz]
    · rw [State.setCrc_run, State.setPending_run] at hl
      simp [hp, he, hb, hl, hr, hz]
    · rw [State.setCrc_run, State.setPending_run] at hl
      simp [hp, he, hb, hl, hr, hz]

end Sys2Proof.Machine
end

section
/-! OUT, the frame of each instruction, the views, and the port without an action. -/

namespace Sys2Proof.Machine

/-! ### OUT only grows (10_state.md R29) -/

/-- What END adds to OUT stands after what is there. -/
theorem endFrame_extends (s : State) : s.out <+: ((emitTerminator (cobsFinish (pushChecksum s))).setMode .idle).out := by
  rw [State.setMode_out, emitTerminator_out]
  exact ((pushChecksum_extends s).trans (cobsFinish_extends _)).trans (List.prefix_append _ _)

/-- Only a BYTE and an END word write OUT. -/
theorem StepTo.out_cases {s t : State} (h : StepTo s t) :
    t.out = s.out ∨
    s.out <+: t.out ∧ ∃ w rest, s.pending = command w :: rest ∧ (w >>> 8 = 2#16 ∨ w >>> 8 = 3#16) := by
  cases h with
  | idle _ | message _ _ _ | readStatus _ _ | readCrc _ _ | hardReset _ _ => exact .inl rfl
  | nop _ _ _ _ | start _ _ _ _ _ | sreset _ _ _ _ => exact .inl rfl
  | error _ _ rest _ _ => exact .inl (raiseError_out (s.setPending rest) _)
  | byte d rest hp _ _ =>
    exact .inr ⟨cobsPush_extends ((s.setPending rest).setCrc (crcStep s.crc d)) d, _, rest, hp, .inl (by simp)⟩
  | endFrame d rest hp _ _ => exact .inr ⟨endFrame_extends (s.setPending rest), _, rest, hp, .inr (by simp)⟩

/-- Settles O31: by `StepTo.out_cases`. -/
theorem outputOnlyGrows : Obligations.OutputOnlyGrows := by
  intro s
  refine step_of_stepTo s fun t h => ?_
  obtain ho | ⟨ho, w, rest, hp, hw⟩ := h.out_cases
  · exact ⟨ho ▸ List.prefix_refl _, fun _ => ho⟩
  · refine ⟨ho, fun hn => ?_⟩
    obtain ⟨h2, h3⟩ := hn w rest hp
    exact absurd hw (by simp [h2, h3])

/-! ### The frame of each instruction (10_state.md R31) -/

/-- A byte that closes no run emits nothing. -/
theorem cobsPush_out_of_open (s : State) {b : Byte} (hb : b ≠ 0x00#8) (hl : s.run.length ≠ 253) :
    (cobsPush b s).out = s.out := by
  rw [cobsPush_extend s b hb hl, State.setRun_out]

/-- Settles O33: by the instruction and what it checks. -/
theorem commandFrames : Obligations.CommandFrames := by
  intro i s
  cases i with
  | nop d => exact ⟨s, rfl, rfl⟩
  | start d =>
    by_cases hr : startReserved d = 0#6
    · cases hm : s.mode with
      | idle => exact ⟨_, execStart_opens s d hr hm, by simp⟩
      | frame => exact ⟨_, execStart_busy s d hr hm, by simp⟩
    · exact ⟨_, execStart_reserved s d hr, by simp⟩
  | byte d =>
    cases hm : s.mode with
    | idle => exact ⟨_, execByte_idle s d hm, by simp [hm]⟩
    | frame =>
      refine ⟨_, execByte_frame s d hm, by simp [hm], by simp, by simp, by simp, by simp, ?_, by simp⟩
      exact cobsPush_out_of_open (s.setCrc (crcStep s.crc d))
  | endFrame d =>
    cases hm : s.mode with
    | idle => exact ⟨_, execEnd_idle s d hm, by simp⟩
    | frame => exact ⟨_, execEnd_frame s d hm, by simp⟩
  | sreset d => exact ⟨_, rfl, by simp⟩
  | initMessage n p => exact ⟨_, rfl, ⟨_, rfl⟩, rfl⟩
  | setLedsMessage o n cs => exact ⟨_, rfl, ⟨_, rfl⟩, rfl⟩

/-! ### STATUS (10_state.md R34) -/

/-- The one-bit and two-bit fields of STATUS, without the run length. -/
def statusFlags (m e ce te z : Bool) (c : BitVec 2) : Word :=
  bit16 m ||| bit16 e <<< 1 ||| c.setWidth 16 <<< 2 ||| bit16 ce <<< 4 ||| bit16 te <<< 5 ||| bit16 z <<< 6

theorem statusView_eq (s : State) : statusView s =
    statusFlags (modeBit s.mode) s.err s.crcEn s.termEn s.lastZero (causeCode s.cause)
      ||| BitVec.ofNat 16 s.run.length <<< 8 := rfl

/-- The flags stand at bits 0 to 6 and do not overlap. -/
theorem statusFlags_toNat : ∀ (m e ce te z : Bool) (c : BitVec 2), (statusFlags m e ce te z c).toNat =
    m.toNat + 2 * e.toNat + 4 * c.toNat + 16 * ce.toNat + 32 * te.toNat + 64 * z.toNat := by
  decide

theorem statusFlags_lt (m e ce te z : Bool) (c : BitVec 2) : (statusFlags m e ce te z c).toNat < 2 ^ 7 := by
  have hc := c.isLt
  have := m.toNat_lt; have := e.toNat_lt; have := ce.toNat_lt; have := te.toNat_lt; have := z.toNat_lt
  rw [statusFlags_toNat]
  omega

/-- The run length stands above the flags. -/
theorem statusView_toNat (s : State) (hl : s.run.length ≤ 253) : (statusView s).toNat =
    (statusFlags (modeBit s.mode) s.err s.crcEn s.termEn s.lastZero (causeCode s.cause)).toNat
      + 256 * s.run.length := by
  have hf := statusFlags_lt (modeBit s.mode) s.err s.crcEn s.termEn s.lastZero (causeCode s.cause)
  have hn : (BitVec.ofNat 16 s.run.length <<< 8).toNat = s.run.length <<< 8 := by
    simp only [BitVec.toNat_shiftLeft, BitVec.toNat_ofNat, Nat.shiftLeft_eq]
    omega
  rw [statusView_eq, BitVec.toNat_or, hn, Nat.or_comm, ← Nat.shiftLeft_add_eq_or_of_lt (by omega), Nat.shiftLeft_eq]
  omega

/-- Settles O34: the flags and the run length do not overlap, and bit 7 lies between them. -/
theorem statusViewLayout : Obligations.StatusViewLayout := by
  refine ⟨fun s hl => ⟨?_, ?_⟩, by decide⟩
  · rw [statusView_toNat s hl, statusFlags_toNat]
    cases s.mode <;> cases s.cause <;> rfl
  · have hf : (statusFlags (modeBit s.mode) s.err s.crcEn s.termEn s.lastZero (causeCode s.cause)).getLsbD 7 = false :=
      Nat.testBit_lt_two_pow (statusFlags_lt ..)
    rw [statusView_eq, BitVec.getLsbD_or, hf]
    simp

/-! ### The host's side -/

/-- Settles O11: by `step_idle`. -/
theorem idleWithoutAction : Obligations.IdleWithoutAction := step_idle

theorem step_readStatus (s : State) (rest : List HostAction) (hp : s.pending = .readStatus :: rest) :
    step s = .next ((s.setPending rest).recordRead (.status (statusView s))) :=
  step_perform s _ rest hp

theorem step_readCrc (s : State) (rest : List HostAction) (hp : s.pending = .readCrc :: rest) :
    step s = .next ((s.setPending rest).recordRead (.crc s.crc)) :=
  step_perform s _ rest hp

/-- One step, then the others. -/
theorem steps_succ_of_step {s t : State} (h : step s = .next t) (k : Nat) : steps (k + 1) s = steps k t := by
  simp [steps, h]

/-- Settles O35: the first read leaves STATUS and CRC as the second finds them. -/
theorem viewReadsHaveNoSideEffect : Obligations.ViewReadsHaveNoSideEffect := by
  refine ⟨step_readStatus, step_readCrc, fun s rest hp => ?_, fun s rest hp => ?_⟩
  · rw [steps_succ_of_step (step_readStatus s _ hp), steps_succ_of_step (step_readStatus _ rest rfl)]
    exact ⟨_, statusView s, rfl, List.append_assoc _ _ _⟩
  · rw [steps_succ_of_step (step_readCrc s _ hp), steps_succ_of_step (step_readCrc _ rest rfl)]
    exact ⟨_, s.crc, rfl, List.append_assoc _ _ _⟩

end Sys2Proof.Machine
end

section
/-! An open frame, command by command: the streaming COBS stage holds the open run of the bytes pushed so far and has
emitted the closed ones (44_cobs.md R170). -/

namespace Sys2Proof.Machine

/-! ### The closed runs and the open run, run by run -/

/-- A saturated run at the head of an input is closed. -/
theorem closedRuns_saturated {r : List Byte} (y : List Byte) (h : NonZero r) (hl : r.length = 254) :
    closedRuns (r ++ y) = r :: closedRuns y := by
  have hf := closedRunsFrom_fuel y (253 + y.length) (by omega)
  rw [closedRuns, List.length_append, hl, show 254 + y.length = 253 + y.length + 1 by omega, closedRunsFrom,
    if_pos (runLength_saturated r y h hl), Config.maxRun, ← hl, List.take_left, List.drop_left, hf]

theorem openRun_saturated {r : List Byte} (y : List Byte) (h : NonZero r) (hl : r.length = 254) :
    openRun (r ++ y) = openRun y := by
  have hf := openRunFrom_fuel y (253 + y.length) (by omega)
  rw [openRun, List.length_append, hl, show 254 + y.length = 253 + y.length + 1 by omega, openRunFrom,
    if_pos (runLength_saturated r y h hl), Config.maxRun, ← hl, List.drop_left, hf]

/-- A zero byte closes the run before it. -/
theorem closedRuns_zero {r : List Byte} (y : List Byte) (h : NonZero r) (hl : r.length ≤ 253) :
    closedRuns (r ++ 0x00#8 :: y) = r :: closedRuns y := by
  have hr := runLength_zero r y h hl
  have hf := closedRunsFrom_fuel y (r.length + y.length) (by omega)
  rw [closedRuns, List.length_append, List.length_cons, ← Nat.add_assoc, closedRunsFrom,
    if_neg (by rw [hr, Config.maxRun]; omega), hr, List.drop_left, List.take_left]
  simp only [hf]

theorem openRun_zero {r : List Byte} (y : List Byte) (h : NonZero r) (hl : r.length ≤ 253) :
    openRun (r ++ 0x00#8 :: y) = openRun y := by
  have hr := runLength_zero r y h hl
  have hf := openRunFrom_fuel y (r.length + y.length) (by omega)
  rw [openRun, List.length_append, List.length_cons, ← Nat.add_assoc, openRunFrom,
    if_neg (by rw [hr, Config.maxRun]; omega), hr, List.drop_left]
  simp only [hf]

/-- A short run that nothing ends stays open. -/
theorem closedRuns_last {r : List Byte} (h : NonZero r) (hl : r.length ≤ 253) : closedRuns r = [] := by
  rw [← closedRunsFrom_fuel r (r.length + 1) (by omega), closedRunsFrom, runLength_end r h (by omega),
    if_neg (by rw [Config.maxRun]; omega), List.drop_length]

theorem openRun_last {r : List Byte} (h : NonZero r) (hl : r.length ≤ 253) : openRun r = r := by
  rw [← openRunFrom_fuel r (r.length + 1) (by omega), openRunFrom, runLength_end r h (by omega),
    if_neg (by rw [Config.maxRun]; omega), List.drop_length]

@[simp] theorem closedRuns_nil : closedRuns [] = [] := rfl
@[simp] theorem openRun_nil : openRun [] = [] := rfl

/-! ### One more byte at the end -/

/-- A zero byte closes the open run. -/
theorem runs_snoc_zero (x : List Byte) :
    closedRuns (x ++ [0x00#8]) = closedRuns x ++ [openRun x] ∧ openRun (x ++ [0x00#8]) = [] := by
  induction x using run_induction with
  | saturated r y hr hl ih =>
    simp only [List.append_assoc, closedRuns_saturated _ hr hl, openRun_saturated _ hr hl, ih, List.cons_append, and_self]
  | zero r y hr hl ih =>
    simp only [List.append_assoc, List.cons_append, closedRuns_zero _ hr hl, openRun_zero _ hr hl, ih, and_self]
  | last r hr hl =>
    simp only [closedRuns_zero [] hr hl, openRun_zero [] hr hl, closedRuns_last hr hl, openRun_last hr hl, closedRuns_nil,
      openRun_nil, List.nil_append, and_self]

theorem nonZero_snoc {r : List Byte} {b : Byte} (h : NonZero r) (hb : b ≠ 0x00#8) : NonZero (r ++ [b]) :=
  List.forall_mem_append.mpr ⟨h, List.forall_mem_singleton.mpr hb⟩

/-- A non-zero byte after an open run of 253 closes it as a saturated run. -/
theorem runs_snoc_saturate (x : List Byte) {b : Byte} (hb : b ≠ 0x00#8) (h : (openRun x).length = 253) :
    closedRuns (x ++ [b]) = closedRuns x ++ [openRun x ++ [b]] ∧ openRun (x ++ [b]) = [] := by
  induction x using run_induction with
  | saturated r y hr hl ih =>
    rw [openRun_saturated _ hr hl] at h
    simp only [List.append_assoc, closedRuns_saturated _ hr hl, openRun_saturated _ hr hl, ih h, List.cons_append, and_self]
  | zero r y hr hl ih =>
    rw [openRun_zero _ hr hl] at h
    simp only [List.append_assoc, List.cons_append, closedRuns_zero _ hr hl, openRun_zero _ hr hl, ih h, and_self]
  | last r hr hl =>
    rw [openRun_last hr hl] at h
    have hl' : (r ++ [b]).length = 254 := by rw [List.length_append, h, List.length_singleton]
    have hc := closedRuns_saturated [] (nonZero_snoc hr hb) hl'
    have ho := openRun_saturated [] (nonZero_snoc hr hb) hl'
    rw [List.append_nil] at hc ho
    rw [hc, ho, closedRuns_last hr hl, openRun_last hr hl]
    exact ⟨rfl, rfl⟩

/-- Any other non-zero byte joins the open run. -/
theorem runs_snoc_extend (x : List Byte) {b : Byte} (hb : b ≠ 0x00#8) (h : (openRun x).length ≠ 253) :
    closedRuns (x ++ [b]) = closedRuns x ∧ openRun (x ++ [b]) = openRun x ++ [b] := by
  induction x using run_induction with
  | saturated r y hr hl ih =>
    rw [openRun_saturated _ hr hl] at h
    simp only [List.append_assoc, closedRuns_saturated _ hr hl, openRun_saturated _ hr hl, ih h, and_self]
  | zero r y hr hl ih =>
    rw [openRun_zero _ hr hl] at h
    simp only [List.append_assoc, List.cons_append, closedRuns_zero _ hr hl, openRun_zero _ hr hl, ih h, and_self]
  | last r hr hl =>
    rw [openRun_last hr hl] at h
    have hl' : (r ++ [b]).length ≤ 253 := by rw [List.length_append, List.length_singleton]; omega
    have hn := nonZero_snoc hr hb
    rw [closedRuns_last hn hl', openRun_last hn hl', closedRuns_last hr hl, openRun_last hr hl]
    exact ⟨rfl, rfl⟩

/-! ### The stage after the bytes `x` -/

/-- `s` with the COBS stage as it stands after the bytes `x` (44_cobs.md R170): the closed runs of `x` stand in OUT under
their length bytes, RUN is the open run, and LAST_ZERO says whether `x` ends in a zero byte. -/
def State.streamed (x : List Byte) (s : State) : State :=
  (s.emit ((closedRuns x).flatMap encodeRun)).setRun (openRun x) (decide (x.getLast? = some 0x00#8))

/-- An empty stage has seen no byte. -/
theorem streamed_nil {s : State} (hr : s.run = []) (hz : s.lastZero = false) : s.streamed [] = s := by
  ext <;> simp [State.streamed, hr, hz]

/-- A push takes the stage of `x` to the stage of `x` and the byte. -/
theorem cobsPush_streamed (b : Byte) (x : List Byte) (s : State) :
    cobsPush b (s.streamed x) = s.streamed (x ++ [b]) := by
  by_cases hb : b = 0x00#8
  · subst hb
    obtain ⟨hc, ho⟩ := runs_snoc_zero x
    rw [cobsPush_zero]
    simp [State.streamed, hc, ho, State.emit, State.setRun, encodeRun]
  · by_cases h : (openRun x).length = 253
    · obtain ⟨hc, ho⟩ := runs_snoc_saturate x hb h
      rw [cobsPush_saturate _ b hb h]
      simp [State.streamed, hc, ho, hb, State.emit, State.setRun, encodeRun, lengthByte, h]
    · obtain ⟨hc, ho⟩ := runs_snoc_extend x hb h
      rw [cobsPush_extend _ b hb h]
      simp [State.streamed, hc, ho, hb, State.emit, State.setRun]

/-! ### The commands of a frame -/

/-- The word of START as a sum (30_encoding.md R72). -/
theorem startWord_eq_add (c t : Bool) :
    startWord c t = 0x0100#16 + (if c then 1#16 else 0#16) + (if t then 2#16 else 0#16) := by
  revert c t; decide

/-- The word of BYTE as a sum (30_encoding.md R73). -/
theorem byteWord_eq_add (b : Byte) : byteWord b = 0x0200#16 + b.setWidth 16 := joinBytes_eq_add _ b

theorem startReserved_startData : ∀ c t, startReserved (startData c t) = 0#6 := by decide
theorem startCrcFlag_startData : ∀ c t, startCrcFlag (startData c t) = c := by decide
theorem startTermFlag_startData : ∀ c t, startTermFlag (startData c t) = t := by decide

/-- START in IDLE opens a frame with its flags (43_framer_commands.md R122). -/
theorem step_startWord (c t : Bool) (s : State) (rest : List HostAction) (hm : s.mode = .idle)
    (hp : s.pending = command (startWord c t) :: rest) : step s = .next ((s.setPending rest).openFrame c t) := by
  rw [step_word s _ _ rest hp (decodeWord_start _ (startReserved_startData c t)),
    execStart_opens (s.setPending rest) _ (startReserved_startData c t) hm, startCrcFlag_startData, startTermFlag_startData]

/-- BYTE in a frame folds the CRC and pushes the byte (43_framer_commands.md R123). -/
theorem step_byteWord (b : Byte) (s : State) (rest : List HostAction) (hm : s.mode = .frame)
    (hp : s.pending = command (byteWord b) :: rest) :
    step s = .next (cobsPush b ((s.setPending rest).setCrc (crcStep s.crc b))) := by
  rw [step_word s _ _ rest hp (decodeWord_byte b), execByte_frame (s.setPending rest) b hm, State.setPending_crc]

/-- `s` as it stands in an open frame after the bytes `x`, with `p` on the port. -/
def State.afterBytes (x : List Byte) (p : List HostAction) (s : State) : State :=
  ((s.setCrc (Machine.crc x)).setPending p).streamed x

theorem step_afterBytes (b : Byte) (x : List Byte) (p : List HostAction) (s : State) (hm : s.mode = .frame) :
    step (s.afterBytes x (command (byteWord b) :: p)) = .next (s.afterBytes (x ++ [b]) p) := by
  rw [step_byteWord b (s.afterBytes x (command (byteWord b) :: p)) p hm rfl]
  unfold State.afterBytes
  rw [crc_snoc, ← cobsPush_streamed]
  rfl

/-- The BYTE commands of `m` take the frame after `x` to the frame after `x` and `m`. -/
theorem steps_byteCommands (m x : List Byte) (p : List HostAction) (s : State) (hm : s.mode = .frame) :
    steps m.length (s.afterBytes x (byteCommands m ++ p)) = .next (s.afterBytes (x ++ m) p) := by
  induction m generalizing x with
  | nil => simp [steps, byteCommands]
  | cons b m ih =>
    have hs : steps (m.length + 1) (s.afterBytes x (byteCommands (b :: m) ++ p)) = _ :=
      steps_succ_of_step (step_afterBytes b x (byteCommands m ++ p) s hm) m.length
    rw [List.length_cons, hs, ih, List.append_assoc, List.singleton_append]

/-- A new frame has seen no byte. -/
theorem openFrame_eq_afterBytes (c t : Bool) (s : State) :
    s.openFrame c t = (s.openFrame c t).afterBytes [] s.pending := by
  rw [State.afterBytes, streamed_nil rfl rfl]
  rfl

/-- START and the BYTE commands of `m`, from IDLE. -/
theorem steps_start_byteCommands (c t : Bool) (m : List Byte) (s : State) (rest : List HostAction) (hm : s.mode = .idle)
    (hp : s.pending = command (startWord c t) :: (byteCommands m ++ rest)) :
    steps (m.length + 1) s = .next ((s.openFrame c t).afterBytes m rest) := by
  rw [steps_succ_of_step (step_startWord c t s _ hm hp), openFrame_eq_afterBytes]
  exact steps_byteCommands m [] rest _ rfl

/-- Settles O48: the state after START and the bytes `m` is `State.afterBytes m` of the new frame. -/
theorem openFrameShowsOnlyClosedRuns : Obligations.OpenFrameShowsOnlyClosedRuns := by
  intro c t m s rest hm hp
  rw [← startWord_eq_add] at hp
  simp only [← byteWord_eq_add] at hp
  exact steps_start_byteCommands c t m s rest hm hp

end Sys2Proof.Machine
end

section
/-! The host's port: what a step takes from it, puts on it and records (20_memory.md R58, R59, R223). -/

namespace Sys2Proof.Machine

/-- The BYTE words that feed a message, written out. -/
theorem byteCommands_eq_map (m : List Byte) :
    byteCommands m = m.map fun b => command (0x0200#16 + b.setWidth 16) := by
  simp only [byteCommands, byteWord_eq_add]

/-- STATUS does not show the port (10_state.md R34). -/
@[simp] theorem statusView_setPending (s : State) (p : List HostAction) :
    statusView (s.setPending p) = statusView s := rfl

/-- Settles O12: every case of `StepTo` takes the action it names; a message feeds its BYTE words, and only the two view
reads record a value. -/
theorem portIsTakenInOrder : Obligations.PortIsTakenInOrder := by
  intro a s rest hp
  refine step_of_stepTo s fun t h => ?_
  cases h with
  | idle hp' => simp [hp] at hp'
  | message m _ hp' =>
    obtain ⟨rfl, rfl⟩ := List.cons.inj (hp.symm.trans hp')
    simp [byteCommands_eq_map]
  | readStatus _ hp' | readCrc _ hp' | hardReset _ hp' | error _ _ _ hp' _ | nop _ _ hp' _ | start _ _ hp' _ _
  | byte _ _ hp' _ _ | endFrame _ _ hp' _ _ | sreset _ _ hp' _ =>
    obtain ⟨rfl, rfl⟩ := List.cons.inj (hp.symm.trans hp')
    simp

end Sys2Proof.Machine
end

section
/-! Decoder and encoder (30_encoding.md R70 to R77, 41_messages.md R91, R92): the round trip, and the opcode map by the
value of the word. -/

namespace Sys2Proof.Machine

/-! ### The round trip -/

/-- Settles O15: one lemma about the decoder per instruction. -/
theorem decodeOfEncode : Obligations.DecodeOfEncode := by
  intro i h
  cases i with
  | nop d => exact decodeWord_nop d
  | start d => exact decodeWord_start d (beq_iff_eq.mp h)
  | byte d => exact decodeWord_byte d
  | endFrame d => exact decodeWord_end d
  | sreset d => exact decodeWord_sreset d
  | initMessage n p => exact decodeMessage_init n p
  | setLedsMessage o n cs => exact decodeMessage_setLeds o n cs

/-- Only the two layouts of 41_messages.md R91 and R92 are read as an instruction. -/
theorem encode_of_decodeMessage {m : List Byte} {i : Instr} (h : decodeMessage m = .ok i) :
    i.wellFormed = true ∧ encode i = .message m := by
  unfold decodeMessage at h
  split at h
  · cases h
  · split_ifs at h with h0 h1
    · split at h <;> cases h
      exact ⟨rfl, by simp [encode, initMsgBytes, h0]⟩
    · split at h <;> cases h
      exact ⟨rfl, by simp [encode, setLedsMsgBytes, h1]⟩

/-- A word read as an instruction is the opcode of that instruction and its DATA (30_encoding.md R71, R72). -/
theorem encode_of_decodeWord {w : Word} {i : Instr} (h : decodeWord w = .ok i) :
    i.wellFormed = true ∧ encode i = .word w := by
  induction w using word_cases with
  | h hi lo =>
    obtain rfl | rfl | rfl | rfl | rfl | hh := opcode_cases hi
    · cases (decodeWord_nop lo).symm.trans h; exact ⟨rfl, rfl⟩
    · by_cases hr : startReserved lo = 0#6
      · cases (decodeWord_start lo hr).symm.trans h; exact ⟨beq_iff_eq.mpr hr, rfl⟩
      · cases (decodeWord_reserved lo hr).symm.trans h
    · cases (decodeWord_byte lo).symm.trans h; exact ⟨rfl, rfl⟩
    · cases (decodeWord_end lo).symm.trans h; exact ⟨rfl, rfl⟩
    · cases (decodeWord_sreset lo).symm.trans h; exact ⟨rfl, rfl⟩
    · cases (decodeWord_illegal hi lo hh).symm.trans h

/-- Settles O16: for a command word and for a message. -/
theorem encodeOfDecode : Obligations.EncodeOfDecode := by
  intro im i h
  cases im with
  | word w => exact encode_of_decodeWord h
  | message m => exact encode_of_decodeMessage h

/-! ### The opcode map by the value of the word (30_encoding.md R71, R76, R77) -/

/-- START's reserved bits are clear exactly in the DATA 0 to 3. -/
theorem startReserved_eq_zero_iff (d : Byte) : startReserved d = 0#6 ↔ d.toNat < 4 := by
  revert d; decide

/-- A number is the word of its two base-256 digits. -/
theorem ofNat_eq_joinBytes {n k : Nat} {d : Byte} (hd : d = BitVec.ofNat 8 (n % 256)) (hk : n / 256 = k)
    (hn : n < 65536) : BitVec.ofNat 16 n = joinBytes (BitVec.ofNat 8 k) d := by
  subst hd hk
  apply BitVec.eq_of_toNat_eq
  rw [joinBytes_toNat]
  simp only [BitVec.toNat_ofNat]
  omega

/-- Settles O13: each range fixes the opcode, and the ranges of START fix the reserved bits. -/
theorem wordClassesByRange : Obligations.WordClassesByRange := by
  intro n d hn hd
  have hw {k : Nat} (hk : n / 256 = k) : decode (.word (BitVec.ofNat 16 n)) =
      decodeWord (joinBytes (BitVec.ofNat 8 k) d) :=
    congrArg decodeWord (ofNat_eq_joinBytes hd hk hn)
  have hr : startReserved d = 0#6 ↔ n % 256 < 4 := by
    rw [startReserved_eq_zero_iff, hd, BitVec.toNat_ofNat, Nat.mod_mod]
  split_ifs
  · exact (hw (k := 0) (by omega)).trans (decodeWord_nop d)
  · exact (hw (k := 1) (by omega)).trans (decodeWord_start d (hr.2 (by omega)))
  · exact (hw (k := 1) (by omega)).trans (decodeWord_reserved d (fun h => absurd (hr.1 h) (by omega)))
  · exact (hw (k := 2) (by omega)).trans (decodeWord_byte d)
  · exact (hw (k := 3) (by omega)).trans (decodeWord_end d)
  · exact (hw (k := 4) (by omega)).trans (decodeWord_sreset d)
  · exact (hw rfl).trans (decodeWord_illegal _ d (by rw [BitVec.toNat_ofNat]; omega))

/-- How many numbers below `N` lie in a range. -/
theorem length_filter_range_Ico (lo hi N : Nat) :
    ((List.range N).filter fun n => decide (lo ≤ n ∧ n < hi)).length = min N hi - lo := by
  induction N with
  | zero => simp
  | succ N ih =>
    rw [List.range_succ, List.filter_append, List.length_append, ih, List.filter_singleton]
    by_cases h : lo ≤ N ∧ N < hi
    · rw [decide_eq_true h, cond_true, List.length_singleton]; omega
    · rw [decide_eq_false h, cond_false, List.length_nil]; omega

/-- A class of words that is a range has as many words as the range. -/
theorem countWords_of_range {p : Except Reject Instr → Bool} (lo hi : Nat) (hhi : hi ≤ 65536)
    (h : ∀ n < 65536, p (decode (.word (BitVec.ofNat 16 n))) = decide (lo ≤ n ∧ n < hi)) :
    countWords p = hi - lo := by
  have hf : ∀ n ∈ List.range 65536, p (decode (.word (BitVec.ofNat 16 n))) = decide (lo ≤ n ∧ n < hi) :=
    fun n hn => h n (List.mem_range.mp hn)
  rw [countWords, List.filter_congr hf, length_filter_range_Ico, Nat.min_eq_right hhi]

/-- Settles O14: each class is a range of `wordClassesByRange`. -/
theorem wordCounts : Obligations.WordCounts := by
  refine ⟨countWords_of_range 0x0000 0x0100 (by decide) ?_, countWords_of_range 0x0100 0x0104 (by decide) ?_,
    countWords_of_range 0x0104 0x0200 (by decide) ?_, countWords_of_range 0x0200 0x0300 (by decide) ?_,
    countWords_of_range 0x0300 0x0400 (by decide) ?_, countWords_of_range 0x0400 0x0500 (by decide) ?_,
    countWords_of_range 0x0500 0x10000 (by decide) ?_, rfl⟩
  all_goals
    intro n hn
    rw [wordClassesByRange n _ hn rfl]
    split_ifs <;> simp <;> omega

/-- Settles O17: the decoder run on each sample. -/
theorem sampleWordsDecode : Obligations.SampleWordsDecode := by
  unfold Obligations.SampleWordsDecode
  decide

/-! ### DATA that is ignored (30_encoding.md R74) -/

section
variable (d : Byte) (s : State) (rest : List HostAction)

theorem step_nop (hp : s.pending = command (joinBytes 0x00#8 d) :: rest) : step s = .next (s.setPending rest) :=
  step_word s _ _ rest hp (decodeWord_nop d)

theorem step_endFrame (hp : s.pending = command (joinBytes 0x03#8 d) :: rest) :
    step s = exec (.endFrame d) (s.setPending rest) :=
  step_word s _ _ rest hp (decodeWord_end d)

theorem step_sreset (hp : s.pending = command (joinBytes 0x04#8 d) :: rest) :
    step s = .next (s.setPending rest).clearBlock :=
  step_word s _ _ rest hp (decodeWord_sreset d)

end

/-- Settles O18: no meaning of the three reads DATA; only END in IDLE raises an error. -/
theorem dataOfNopEndSresetIsIgnored : Obligations.DataOfNopEndSresetIsIgnored := by
  intro h d d' s rest hh
  rw [← joinBytes_eq_add, ← joinBytes_eq_add]
  obtain rfl | rfl | rfl := hh
  · rw [step_nop d _ rest rfl, step_nop d' _ rest rfl]
    exact ⟨rfl, .inr ⟨_, rfl, id⟩⟩
  · rw [step_endFrame d _ rest rfl, step_endFrame d' _ rest rfl]
    refine ⟨rfl, ?_⟩
    cases hm : s.mode with
    | idle => exact .inl ⟨rfl, rfl⟩
    | frame => exact .inr ⟨_, execEnd_frame _ d rfl, by simp⟩
  · rw [step_sreset d _ rest rfl, step_sreset d' _ rest rfl]
    exact ⟨rfl, .inr ⟨_, rfl, by simp⟩⟩

end Sys2Proof.Machine
end

section
/-! A whole frame: START, the BYTE commands of a message and END emit FrameOut (43_framer_commands.md R127, R128), and the
pseudo-commands that are such frames (30_encoding.md R80). -/

namespace Sys2Proof.Machine

/-! ### CobsEncode, run by run (44_cobs.md R160) -/

@[simp] theorem cobsEncode_nil : cobsEncode [] = [] := rfl

/-- The turn that cuts a saturated run. -/
theorem cobsEncode_cut {x : List Byte} (hx : x ≠ []) (h : runLength x = 254) :
    cobsEncode x = 0xFF#8 :: (x.take 254 ++ cobsEncode (x.drop 254)) := by
  cases x with
  | nil => exact absurd rfl hx
  | cons b x =>
    have hf := cobsEncodeFrom_fuel ((b :: x).drop 254) x.length (by simp)
    rw [cobsEncode, List.length_cons, cobsEncodeFrom, if_pos h, hf]

theorem cobsEncode_saturated {r : List Byte} (y : List Byte) (h : NonZero r) (hl : r.length = 254) :
    cobsEncode (r ++ y) = encodeRun r ++ cobsEncode y := by
  have hne : r ++ y ≠ [] := List.ne_nil_of_length_pos (by rw [List.length_append]; omega)
  rw [cobsEncode_cut hne (runLength_saturated r y h hl), ← hl, List.take_left, List.drop_left, encodeRun, lengthByte, hl]
  rfl

/-- A zero byte ends a run; at the end of the input an empty run follows it (44_cobs.md R163). -/
theorem cobsEncode_zero {r : List Byte} (y : List Byte) (h : NonZero r) (hl : r.length ≤ 253) :
    cobsEncode (r ++ 0x00#8 :: y) = encodeRun r ++ if y = [] then [0x01#8] else cobsEncode y := by
  have hr := runLength_zero r y h hl
  have hf := cobsEncodeFrom_fuel y (r.length + y.length) (by omega)
  obtain ⟨b, x, hx⟩ := List.exists_cons_of_ne_nil (List.append_ne_nil_of_right_ne_nil r (List.cons_ne_nil 0x00#8 y))
  rw [cobsEncode, List.length_append, List.length_cons, ← Nat.add_assoc, hx, cobsEncodeFrom, ← hx,
    if_neg (by rw [hr, Config.maxRun]; omega), hr, List.take_left, List.drop_left]
  cases y with
  | nil => rfl
  | cons c y => simp only [hf, encodeRun, List.cons_append, List.cons_ne_nil, if_false]

theorem cobsEncode_last {r : List Byte} (h : NonZero r) (hl : r.length ≤ 253) :
    cobsEncode r = if r = [] then [] else encodeRun r := by
  cases r with
  | nil => rfl
  | cons b r =>
    have hr := runLength_end (b :: r) h (by omega)
    rw [cobsEncode, List.length_cons, cobsEncodeFrom, if_neg (by rw [hr, Config.maxRun]; omega), hr, List.drop_length,
      List.take_length, if_neg (List.cons_ne_nil b r), encodeRun]

/-! ### CobsEncode is the closed runs and what CobsFinish adds (44_cobs.md R169, R170) -/

/-- What CobsFinish emits after the bytes `x`: the open run, or the empty run after a last zero byte. -/
def finalRun (x : List Byte) : List Byte :=
  if openRun x ≠ [] then encodeRun (openRun x) else if x.getLast? = some 0x00#8 then [0x01#8] else []

theorem getLast?_ne_zero {r : List Byte} (h : NonZero r) : r.getLast? ≠ some 0x00#8 :=
  fun e => h _ (List.mem_of_getLast? e) rfl

theorem finalRun_saturated {r : List Byte} (y : List Byte) (h : NonZero r) (hl : r.length = 254) :
    finalRun (r ++ y) = finalRun y := by
  rw [finalRun, openRun_saturated y h hl, finalRun]
  cases y with
  | nil => simp [getLast?_ne_zero h]
  | cons b y => simp

theorem finalRun_zero {r : List Byte} (y : List Byte) (h : NonZero r) (hl : r.length ≤ 253) :
    finalRun (r ++ 0x00#8 :: y) = if y = [] then [0x01#8] else finalRun y := by
  rw [finalRun, openRun_zero y h hl, finalRun]
  cases y with
  | nil => simp
  | cons b y => simp

theorem finalRun_last {r : List Byte} (h : NonZero r) (hl : r.length ≤ 253) :
    finalRun r = if r = [] then [] else encodeRun r := by
  rw [finalRun, openRun_last h hl, if_neg (getLast?_ne_zero h), ite_not]

theorem cobsEncode_eq (x : List Byte) : cobsEncode x = (closedRuns x).flatMap encodeRun ++ finalRun x := by
  induction x using run_induction with
  | saturated r y hr hl ih =>
    rw [cobsEncode_saturated y hr hl, closedRuns_saturated y hr hl, finalRun_saturated y hr hl, ih, List.flatMap_cons,
      List.append_assoc]
  | zero r y hr hl ih =>
    rw [cobsEncode_zero y hr hl, closedRuns_zero y hr hl, finalRun_zero y hr hl, ih, List.flatMap_cons, List.append_assoc]
    cases y with
    | nil => rfl
    | cons b y => simp only [List.cons_ne_nil, if_false]
  | last r hr hl => rw [cobsEncode_last hr hl, closedRuns_last hr hl, finalRun_last hr hl]; rfl

/-! ### END after the bytes of a frame -/

section
variable (x : List Byte) (s : State)

@[simp] theorem streamed_crcEn : (s.streamed x).crcEn = s.crcEn := rfl
@[simp] theorem streamed_termEn : (s.streamed x).termEn = s.termEn := rfl
@[simp] theorem streamed_crc : (s.streamed x).crc = s.crc := rfl
@[simp] theorem streamed_err : (s.streamed x).err = s.err := rfl
@[simp] theorem streamed_cause : (s.streamed x).cause = s.cause := rfl
@[simp] theorem streamed_pending : (s.streamed x).pending = s.pending := rfl
@[simp] theorem streamed_reads : (s.streamed x).reads = s.reads := rfl

theorem cobsFinish_streamed_out : (cobsFinish (s.streamed x)).out = s.out ++ cobsEncode x := by
  rw [cobsFinish_out, cobsEncode_eq, ← List.append_assoc]
  simp [State.streamed, finalRun, encodeRun]

/-- The checksum bytes are pushed like two more bytes of the message. -/
theorem pushChecksum_streamed :
    pushChecksum (s.streamed x) = s.streamed (x ++ if s.crcEn then checksumBytes s.crc else []) := by
  rw [pushChecksum, streamed_crcEn, streamed_crc]
  split_ifs
  · rw [cobsPush_streamed, cobsPush_streamed, List.append_assoc]; rfl
  · rw [List.append_nil]

end

/-- `s` after a whole frame of the message `m` (43_framer_commands.md R128), with `p` on the port. -/
def State.afterFrame (c t : Bool) (m : List Byte) (p : List HostAction) (s : State) : State :=
  { s with
    mode := .idle, crcEn := c, termEn := t, crc := Machine.crc m, run := [], lastZero := false
    out := s.out ++ frameOut c t m, pending := p }

/-- END with any DATA, in a frame that has heard `m`. -/
theorem step_end_afterBytes (c t : Bool) (d : Byte) (m : List Byte) (p : List HostAction) (s : State) :
    step ((s.openFrame c t).afterBytes m (command (joinBytes 0x03#8 d) :: p)) = .next (s.afterFrame c t m p) := by
  have hs : ((s.openFrame c t).afterBytes m (command (joinBytes 0x03#8 d) :: p)).setPending p =
    (((s.openFrame c t).setCrc (crc m)).setPending p).streamed m := rfl
  rw [step_endFrame d _ p rfl, execEnd_frame _ d rfl, hs, pushChecksum_streamed]
  congr 1
  apply State.ext
  case out =>
    rw [State.setMode_out, emitTerminator_out, cobsFinish_termEn, streamed_termEn, cobsFinish_streamed_out,
      List.append_assoc]
    rfl
  all_goals simp [State.afterFrame]

/-! ### Several steps -/

theorem steps_add {j : Nat} {s t : State} (h : steps j s = .next t) (k : Nat) : steps (j + k) s = steps k t := by
  induction j generalizing s with
  | zero => cases h; rw [Nat.zero_add]
  | succ j ih =>
    obtain ⟨u, hu, -⟩ := step_stepTo s
    rw [steps_succ_of_step hu] at h
    rw [Nat.add_right_comm, steps_succ_of_step hu, ih h]

/-- START with flags `c` and `t`, the BYTE commands of `m` and END with any DATA, from IDLE (43_framer_commands.md R128). -/
theorem steps_frame (c t : Bool) (d : Byte) (m : List Byte) (s : State) (rest : List HostAction) (hm : s.mode = .idle)
    (hp : s.pending = command (startWord c t) :: (byteCommands m ++ command (joinBytes 0x03#8 d) :: rest)) :
    steps (m.length + 2) s = .next (s.afterFrame c t m rest) := by
  rw [show m.length + 2 = m.length + 1 + 1 from rfl, steps_add (steps_start_byteCommands c t m s _ hm hp),
    steps_succ_of_step (step_end_afterBytes c t d m rest s), steps]

/-! ### The words of an assembly line -/

/-- The words of a frame run from IDLE. -/
theorem steps_frameWords (c t : Bool) (m : List Byte) (s : State) (rest : List HostAction) (hm : s.mode = .idle)
    (hp : s.pending = (frameWords c t m).map command ++ rest) :
    steps (frameWords c t m).length s = .next (s.afterFrame c t m rest) := by
  rw [show (frameWords c t m).length = m.length + 2 by simp [frameWords]]
  refine steps_frame c t 0x00#8 m s rest hm ?_
  simp [hp, frameWords, byteCommands, endWord]

/-- Any command words run one a step, and the rest stays pending. -/
theorem steps_words (ws : List Word) (s : State) (rest : List HostAction) (hp : s.pending = ws.map command ++ rest) :
    ∃ t, steps ws.length s = .next t ∧ t.pending = rest := by
  induction ws generalizing s with
  | nil => exact ⟨s, rfl, hp⟩
  | cons w ws ih =>
    obtain ⟨t, ht, hr, -⟩ := portIsTakenInOrder (command w) s _ hp
    rw [List.length_cons, steps_succ_of_step ht]
    exact ih t hr

/-- The words of a frame, written out. -/
theorem frameWords_eq (c t : Bool) (m : List Byte) : frameWords c t m =
    startWord c t :: (m.map (fun b => 0x0200#16 + b.setWidth 16) ++ [0x0300#16]) := by
  rw [frameWords, funext byteWord_eq_add]; rfl

/-- Settles O50: SEND, SYNC and CRCONLY are frames, so `steps_frameWords` gives the state after their words. -/
theorem pseudoCommandsExpandAndRun : Obligations.PseudoCommandsExpandAndRun := by
  refine ⟨frameWords_eq true true, frameWords_eq false true [], frameWords_eq false false, fun _ _ => rfl,
    fun _ _ _ => rfl, fun l s rest hm hp => ?_⟩
  obtain ⟨t, ht, hr⟩ := steps_words (assembleLine l) s rest hp
  have after {c t' m} (hl : assembleLine l = frameWords c t' m) : t = s.afterFrame c t' m rest := by
    rw [hl] at hp ht
    exact Host.Outcome.next.inj (ht.symm.trans (steps_frameWords c t' m s rest hm hp))
  refine ⟨t, ht, hr, ?_, ?_, ?_⟩
  · rintro m rfl
    rw [after rfl]; rfl
  · rintro rfl
    rw [after rfl]; rfl
  · rintro m rfl
    rw [after rfl]
    exact ⟨by simp [State.afterFrame, frameOut], rfl⟩

end Sys2Proof.Machine
end

section
/-! The assembler's text (30_encoding.md R79): it reads a number written with `Nat.toDigits` back, and a line of a mnemonic,
an operand and a comment as its statement. -/

namespace Sys2Proof.Machine

/-! ### Numbers -/

/-- A digit written in any base up to 16 is read back in that base. -/
theorem digitValue_digitChar {base k : Nat} (hb : base ≤ 16) (hk : k < base) :
    digitValue base k.digitChar = some k := by
  have h : ∀ b : Fin 17, ∀ k : Fin b, digitValue b (k : Nat).digitChar = some (k : Nat) := by decide
  exact h ⟨base, by omega⟩ ⟨k, hk⟩

/-- The last digit is read last. -/
theorem parseDigits_snoc (base : Nat) (cs : List Char) (c : Char) (acc : Nat) :
    parseDigits base (cs ++ [c]) acc =
      (parseDigits base cs acc).bind fun n => (digitValue base c).map fun v => n * base + v := by
  induction cs generalizing acc with
  | nil => cases h : digitValue base c <;> simp [parseDigits, h]
  | cons d cs ih => cases h : digitValue base d <;> simp [parseDigits, h, ih]

/-- Reading the digits of a number gives the number. -/
theorem parseDigits_toDigits {base : Nat} (h1 : 1 < base) (hb : base ≤ 16) (n : Nat) :
    parseDigits base (Nat.toDigits base n) 0 = some n := by
  induction n using Nat.strong_induction_on with
  | _ n ih =>
    by_cases hn : n < base
    · rw [Nat.toDigits_of_lt_base hn]
      simp [parseDigits, digitValue_digitChar hb hn]
    · have hm := Nat.mod_lt n (by omega : 0 < base)
      have hd := ih (n / base) (Nat.div_lt_self (by omega) h1)
      rw [Nat.toDigits_of_base_le h1 (by omega), parseDigits_snoc, hd, digitValue_digitChar hb hm]
      simp [Nat.div_add_mod']

theorem eq_digitChar_of_mem_toDigits {base : Nat} (h1 : 1 < base) {n : Nat} {c : Char} (h : c ∈ Nat.toDigits base n) :
    ∃ k : Nat, c = k.digitChar := by
  induction n using Nat.strong_induction_on with
  | _ n ih =>
    by_cases hn : n < base
    · rw [Nat.toDigits_of_lt_base hn, List.mem_singleton] at h
      exact ⟨n, h⟩
    · rw [Nat.toDigits_of_base_le h1 (by omega), List.mem_append, List.mem_singleton] at h
      obtain h | h := h
      · exact ih _ (Nat.div_lt_self (by omega) h1) h
      · exact ⟨_, h⟩

/-- A text without an `x` does not begin with `0x`, so it is read in decimal. -/
theorem parseNumber_decimal {cs : List Char} (hne : cs ≠ []) (hx : 'x' ∉ cs) : parseNumber cs = parseDigits 10 cs 0 := by
  unfold parseNumber
  split
  · exact absurd rfl hne
  · simp at hx
  · rfl

theorem parseNumber_hex {cs : List Char} (hne : cs ≠ []) : parseNumber ('0' :: 'x' :: cs) = parseDigits 16 cs 0 := by
  obtain ⟨c, cs, rfl⟩ := List.exists_cons_of_ne_nil hne
  rfl

theorem parseNumber_toDigits_ten (n : Nat) : parseNumber (Nat.toDigits 10 n) = some n := by
  have hx : 'x' ∉ Nat.toDigits 10 n := fun h =>
    have ⟨_, hk⟩ := eq_digitChar_of_mem_toDigits (by decide) h
    Nat.digitChar_ne 'x' (by decide) hk.symm
  rw [parseNumber_decimal Nat.toDigits_ne_nil hx, parseDigits_toDigits (by decide) (by decide)]

theorem parseNumber_toDigits_sixteen (n : Nat) : parseNumber ('0' :: 'x' :: Nat.toDigits 16 n) = some n := by
  rw [parseNumber_hex Nat.toDigits_ne_nil, parseDigits_toDigits (by decide) (by decide)]

/-! ### Lines -/

/-- A word of a line: not empty, without a blank and without the start of a comment. -/
def Token (cs : List Char) : Prop := cs ≠ [] ∧ ∀ c ∈ cs, isBlank c = false ∧ c ≠ ';'

theorem token_toDigits {base : Nat} (h1 : 1 < base) (n : Nat) : Token (Nat.toDigits base n) := by
  refine ⟨Nat.toDigits_ne_nil, fun c h => ?_⟩
  obtain ⟨k, rfl⟩ := eq_digitChar_of_mem_toDigits h1 h
  simp [isBlank, Nat.digitChar_ne]

theorem Token.append {cs ds : List Char} (h : Token cs) (h' : Token ds) : Token (cs ++ ds) :=
  ⟨List.append_ne_nil_of_left_ne_nil h.1 ds, List.forall_mem_append.mpr ⟨h.2, h'.2⟩⟩

theorem Token.head {cs : List Char} (h : Token cs) : ∃ c, cs.head? = some c ∧ isBlank c = false :=
  ⟨cs.head h.1, List.head?_eq_some_head h.1, (h.2 _ (List.head_mem h.1)).1⟩

theorem Token.last {cs : List Char} (h : Token cs) : ∃ c, cs.getLast? = some c ∧ isBlank c = false :=
  ⟨cs.getLast h.1, List.getLast?_eq_some_getLast h.1, (h.2 _ (List.getLast_mem h.1)).1⟩

theorem dropWhile_isBlank {w : List Char} (h : ∃ c, w.head? = some c ∧ isBlank c = false) : w.dropWhile isBlank = w := by
  obtain ⟨c, hc, hb⟩ := h
  obtain ⟨w, rfl⟩ := List.head?_eq_some_iff.mp hc
  exact List.dropWhile_cons_of_neg (by simp [hb])

/-- `trimBlanks` takes off the blanks before and after a text that begins and ends with none. -/
theorem trimBlanks_append {pre w post : List Char}
    (hpre : ∀ c ∈ pre, isBlank c = true) (hpost : ∀ c ∈ post, isBlank c = true)
    (hh : ∃ c, w.head? = some c ∧ isBlank c = false) (hl : ∃ c, w.getLast? = some c ∧ isBlank c = false) :
    trimBlanks (pre ++ (w ++ post)) = w := by
  have hw : (w ++ post).dropWhile isBlank = w ++ post := by
    obtain ⟨c, hc, hb⟩ := hh
    exact dropWhile_isBlank ⟨c, by simp [hc], hb⟩
  rw [trimBlanks, List.dropWhile_append_of_pos hpre, hw, List.reverse_append,
    List.dropWhile_append_of_pos (by simpa using hpost), dropWhile_isBlank (by simpa using hl), List.reverse_reverse]

theorem takeWhile_token {w : List Char} (hw : Token w) (y : List Char) :
    (w ++ ' ' :: y).takeWhile (fun c => !isBlank c) = w := by
  rw [List.takeWhile_append_of_pos fun c hc => by simp [(hw.2 c hc).1]]
  exact List.append_nil w

theorem dropWhile_token {w : List Char} (hw : Token w) (y : List Char) :
    (w ++ ' ' :: y).dropWhile (fun c => !isBlank c) = ' ' :: y := by
  rw [List.dropWhile_append_of_pos fun c hc => by simp [(hw.2 c hc).1]]
  rfl

/-- A line of a mnemonic and one operand, with blanks or a comment after it, is read as its statement. -/
theorem parseLine_statement {mnemonic operand tail : List Char} (hm : Token mnemonic) (ho : Token operand)
    (ht : ∀ c ∈ tail.takeWhile (fun c => c != ';'), isBlank c = true) :
    parseLine (mnemonic ++ ' ' :: (operand ++ tail)) =
      (parseStatement mnemonic (' ' :: operand)).map fun l => [l] := by
  have hs : ∀ c ∈ mnemonic ++ ' ' :: operand, (c != ';') = true := by
    simp only [List.mem_append, List.mem_cons, bne_iff_ne]
    rintro c (h | rfl | h)
    · exact (hm.2 c h).2
    · decide
    · exact (ho.2 c h).2
  have hh : ∃ c, (mnemonic ++ ' ' :: operand).head? = some c ∧ isBlank c = false := by
    obtain ⟨c, hc, hb⟩ := hm.head
    exact ⟨c, by simp [hc], hb⟩
  have hl : ∃ c, (mnemonic ++ ' ' :: operand).getLast? = some c ∧ isBlank c = false := by
    obtain ⟨c, hc, hb⟩ := ho.last
    exact ⟨c, by simp [List.getLast?_append, List.getLast?_cons, hc], hb⟩
  have htrim := trimBlanks_append (pre := []) (by simp) ht hh hl
  rw [parseLine, ← List.cons_append, ← List.append_assoc, List.takeWhile_append_of_pos hs]
  rw [List.nil_append] at htrim
  simp only [htrim, takeWhile_token hm, dropWhile_token hm]
  rw [if_neg (by simp)]

/-- A line whose operand is a byte's number assembles to the BYTE word (30_encoding.md R73, R79). -/
theorem assembleLines_byte {b : Byte} {operand tail : List Char} (ho : Token operand)
    (hn : parseNumber operand = some b.toNat) (ht : ∀ c ∈ tail.takeWhile (fun c => c != ';'), isBlank c = true) :
    assembleLines ["BYTE ".toList ++ (operand ++ tail)] = some [0x0200#16 + b.setWidth 16] := by
  have hm : Token ['B', 'Y', 'T', 'E'] := by simp [Token, isBlank]
  have htrim := trimBlanks_append (pre := [' ']) (post := []) (by simp [isBlank]) (by simp) ho.head ho.last
  rw [List.append_nil, List.singleton_append] at htrim
  have hb : parseByte (' ' :: operand) = some b := by
    simp [parseByte, htrim, hn, Nat.le_of_lt_succ b.isLt]
  have hl : parseLine ("BYTE ".toList ++ (operand ++ tail)) = some [.byte b] := by
    refine (parseLine_statement hm ho ht).trans ?_
    simp [parseStatement, hb]
  rw [← byteWord_eq_add]
  simp only [assembleLines, hl]
  rfl

/-- Settles O51: the digits of a byte are a token that is read back; the other lines are run. -/
theorem assemblerReadsEveryOperand : Obligations.AssemblerReadsEveryOperand := by
  refine ⟨fun b => ⟨?_, ?_⟩, by decide, by decide, by decide⟩
  · have h := assembleLines_byte (tail := []) (token_toDigits (by decide) b.toNat) (parseNumber_toDigits_ten b.toNat)
      (by simp)
    rwa [List.append_nil] at h
  · have hx : Token ('0' :: 'x' :: Nat.toDigits 16 b.toNat) :=
      Token.append (cs := ['0', 'x']) (by simp [Token, isBlank]) (token_toDigits (by decide) _)
    exact assembleLines_byte hx (parseNumber_toDigits_sixteen b.toNat) (by simp [isBlank])

end Sys2Proof.Machine
end

section
/-! The host's messages (41_messages.md): their layouts, the BYTE commands that feed them, and the packet that START, a
message and END emit. -/

namespace Sys2Proof.Machine

/-- Settles O7: each layout is what the encoder writes, and the decoder reads it back. -/
theorem messageLayouts : Obligations.MessageLayouts := by
  refine ⟨fun n p => ⟨rfl, rfl, decodeMessage_init n p⟩, fun o n cs => ⟨rfl, setLedsMsgBytes o n cs, rfl, rfl, ?_,
    decodeMessage_setLeds o n cs⟩, rfl, rfl⟩
  rw [setLedsMsgBytes, List.length_append]; rfl

/-! ### Feeding a message -/

/-- A fed message only adds its BYTE words at the head of the port. -/
theorem feedMessage_eq (m : List Byte) (s : State) : feedMessage m s =
    { s with pending := m.map (fun b => command (0x0200#16 + b.setWidth 16)) ++ s.pending } := by
  rw [← byteCommands_eq_map]; rfl

theorem exec_initMessage (n p : Byte) (s : State) :
    exec (.initMessage n p) s = .next (feedMessage (initMsgBytes n p) s) := rfl

theorem exec_setLedsMessage (o n : Byte) (cs : List Byte) (s : State) :
    exec (.setLedsMessage o n cs) s = .next (feedMessage (setLedsMsgBytes o n cs) s) := rfl

/-- Settles O8: both meanings feed the bytes of their layout. -/
theorem messagesFeedByteCommands : Obligations.MessagesFeedByteCommands := by
  constructor
  · intro n p s
    rw [exec_initMessage, feedMessage_eq]; rfl
  · intro o n cs s
    rw [exec_setLedsMessage, feedMessage_eq]; rfl

/-- Settles O9: the step feeds the message, whatever the decoder makes of it. -/
theorem anyMessageIsFedAsGiven : Obligations.AnyMessageIsFedAsGiven := by
  intro m s rest hp
  rw [step_message s m rest hp, feedMessage_eq]; rfl

/-! ### A message in a frame -/

/-- Feeding the first message of a frame leaves a frame that has heard no byte, with the message's BYTE commands next. -/
theorem feedMessage_openFrame (c t : Bool) (m : List Byte) (p q : List HostAction) (s : State) :
    feedMessage m (((s.setPending q).openFrame c t).setPending p) =
      (s.openFrame c t).afterBytes [] (byteCommands m ++ p) := by
  rw [State.afterBytes, streamed_nil rfl rfl]; rfl

/-- START with flags `c` and `t`, the message `m` and END with any DATA, from IDLE: the frame of `steps_frame`, one step
later, since feeding the message is a step of its own (notes/assumptions/2.md). -/
theorem steps_messageFrame (c t : Bool) (d : Byte) (m : List Byte) (s : State) (rest : List HostAction)
    (hm : s.mode = .idle)
    (hp : s.pending = command (startWord c t) :: .issue (.message m) :: command (joinBytes 0x03#8 d) :: rest) :
    steps (m.length + 3) s = .next (s.afterFrame c t m rest) := by
  have hbytes := steps_byteCommands m [] (command (joinBytes 0x03#8 d) :: rest) (s.openFrame c t) rfl
  rw [show m.length + 3 = m.length + 1 + 1 + 1 from rfl, steps_succ_of_step (step_startWord c t s _ hm hp),
    steps_succ_of_step (step_message _ m _ rfl), feedMessage_openFrame, steps_add hbytes, List.nil_append,
    steps_succ_of_step (step_end_afterBytes c t d m rest s), steps]

/-- Settles O49: with both flags set, the frame of `steps_messageFrame` is BuildPacket (43_framer_commands.md R127). -/
theorem sendingAMessageBuildsItsPacket : Obligations.SendingAMessageBuildsItsPacket := by
  intro m s rest hm hp
  exact ⟨_, steps_messageFrame true true 0x00#8 m s rest hm hp, rfl, rfl, rfl, rfl, rfl⟩

end Sys2Proof.Machine
end

section
/-! The CRC (42_crc16.md): the register after any step, the algebra of `crcStep`, and its normal form. -/

namespace Sys2Proof.Machine

/-- Settles O28: a BYTE folds its byte into CRC, START and the two resets clear it, and no other case writes it. -/
theorem crcRegisterAfterStep : Obligations.CrcRegisterAfterStep := by
  intro s
  refine step_of_stepTo s fun t h => ?_
  cases h with
  | idle hp | message _ _ hp | readStatus _ hp | readCrc _ hp | hardReset _ hp => simp [hp]
  | error _ _ _ hp he | nop _ _ hp he | endFrame _ _ hp he _ => simp [hp, he]
  | start _ _ hp he _ | sreset _ _ hp he => simp [hp, he]
  | byte _ _ hp he _ => simp [hp, he]

/-! ### `crcStep` is linear over XOR (42_crc16.md R107) -/

/-- The polynomial is added once for each operand whose bit 0 is 1, and two additions cancel. -/
theorem crcBit_xor (c c' : Word) : crcBit (c ^^^ c') = crcBit c ^^^ crcBit c' := by
  have hp : Config.crcPoly ^^^ (c' >>> 1 ^^^ Config.crcPoly) = c' >>> 1 := by
    rw [BitVec.xor_comm, BitVec.xor_assoc, BitVec.xor_self, BitVec.xor_zero]
  unfold crcBit
  rw [BitVec.getLsbD_xor, BitVec.ushiftRight_xor_distrib]
  cases c.getLsbD 0 <;> cases c'.getLsbD 0
  case false.false => rfl
  case false.true => exact BitVec.xor_assoc _ _ _
  case true.false =>
    change c >>> 1 ^^^ c' >>> 1 ^^^ Config.crcPoly = c >>> 1 ^^^ Config.crcPoly ^^^ c' >>> 1
    ac_rfl
  case true.true => simp [BitVec.xor_assoc, hp]

theorem crcBits_xor (k : Nat) (c c' : Word) : crcBits k (c ^^^ c') = crcBits k c ^^^ crcBits k c' := by
  induction k generalizing c c' with
  | zero => rfl
  | succ k ih => rw [crcBits, crcBit_xor, ih]; rfl

theorem zext16_xor (b b' : Byte) : zext16 (b ^^^ b') = zext16 b ^^^ zext16 b' := BitVec.setWidth_xor

theorem crcStep_xor (c c' : Word) (b b' : Byte) :
    crcStep (c ^^^ c') (b ^^^ b') = crcStep c b ^^^ crcStep c' b' := by
  have h : c ^^^ c' ^^^ (zext16 b ^^^ zext16 b') = c ^^^ zext16 b ^^^ (c' ^^^ zext16 b') := by ac_rfl
  rw [crcStep, zext16_xor, h, crcBits_xor]; rfl

/-! ### The fold -/

theorem crc_append (m m' : List Byte) : crc (m ++ m') = m'.foldl crcStep (crc m) := List.foldl_append

/-- A zero byte leaves the initial value, which is zero. -/
theorem crcStep_zero_zero : crcStep 0x0000#16 0x00#8 = 0x0000#16 := by decide

theorem crc_replicate_zero (k : Nat) : crc (List.replicate k 0x00#8) = 0x0000#16 := by
  induction k with
  | zero => rfl
  | succ k ih => rw [List.replicate_succ', crc_snoc, ih, crcStep_zero_zero]

/-- Settles O36: the fold over a concatenation, the zero byte's step from zero, and the linearity of each iteration. -/
theorem crcProperties : Obligations.CrcProperties := by
  refine ⟨crc_append, fun k m => ⟨crc_replicate_zero k, ?_⟩, crcStep_xor⟩
  rw [crc_append, crc_replicate_zero]; rfl

/-! ### Bit reversal carries the normal form to the reflected one (42_crc16.md R102) -/

theorem reverse_xor {w : Nat} (x y : BitVec w) : (x ^^^ y).reverse = x.reverse ^^^ y.reverse := by
  ext i hi
  simp [BitVec.getElem_reverse]

theorem reverse_shiftLeft {w : Nat} (x : BitVec w) (n : Nat) : (x <<< n).reverse = x.reverse >>> n := by
  ext i hi
  simp [BitVec.getElem_reverse, BitVec.getMsbD_shiftLeft, BitVec.getLsbD_reverse, Nat.add_comm]

/-- `crcBit` in the normal form: shift left, and XOR 0x8005 on a carry out. -/
def crcBitNormal (c : Word) : Word := if c.getLsbD 15 then (c <<< 1) ^^^ 0x8005#16 else c <<< 1

theorem crcBitsNormal_succ (k : Nat) (c : Word) : crcBitsNormal (k + 1) c = crcBitsNormal k (crcBitNormal c) := rfl

/-- 0xA001 is the reversal of 0x8005. -/
theorem reverse_normalPoly : (0x8005#16).reverse = Config.crcPoly := by decide

/-- The bit carried out on the left is bit 0 of the reversed value. -/
theorem crcBitNormal_reverse (c : Word) : (crcBitNormal c).reverse = crcBit c.reverse := by
  have hb : c.reverse.getLsbD 0 = c.getLsbD 15 := BitVec.getLsbD_reverse.trans (by simp [BitVec.getMsbD])
  unfold crcBitNormal crcBit
  rw [hb, apply_ite BitVec.reverse, reverse_xor, reverse_shiftLeft, reverse_normalPoly]

theorem crcBitsNormal_reverse (k : Nat) (c : Word) : (crcBitsNormal k c).reverse = crcBits k c.reverse := by
  induction k generalizing c with
  | zero => rfl
  | succ k ih => rw [crcBitsNormal_succ, ih, crcBitNormal_reverse]; rfl

/-- A reversed byte in the high half is, reversed, the byte in the low half. -/
theorem reverse_highByte_reverse (b : Byte) : (b.reverse.setWidth 16 <<< 8).reverse = zext16 b := by
  rw [reverse_shiftLeft]
  ext i hi
  rw [BitVec.getElem_ushiftRight, BitVec.getLsbD_reverse, BitVec.getMsbD_setWidth, BitVec.getMsbD_reverse]
  simp [zext16, show 8 + i + 8 - 16 = i by omega]

/-- Settles O37: reversal carries the normal form's input and each of its iterations to those of `crcStep`. -/
theorem crcStepIsReflectedNormalForm : Obligations.CrcStepIsReflectedNormalForm := by
  intro c b
  rw [crcBitsNormal_reverse, reverse_xor, BitVec.reverse_reverse_eq, reverse_highByte_reverse]; rfl

end Sys2Proof.Machine
end

section
/-! The reference decoder and the receiver (44_cobs.md R171, 43_framer_commands.md R129, R130): decoding undoes
CobsEncode, an encoding has no zero byte, and so a receiver gets every message of a stream of packets back. -/

namespace Sys2Proof.Machine

/-! ### CobsDecode undoes CobsEncode (44_cobs.md R171, R172) -/

@[simp] theorem cobsDecode_nil : cobsDecode [] = some [] := rfl

/-- One turn of CobsDecode on a length byte and the data bytes it announces. -/
theorem cobsDecode_run {l : Byte} {d : List Byte} (y : List Byte) (hl : l ≠ 0x00#8) (hd : d.length = l.toNat - 1) :
    cobsDecode (l :: (d ++ y)) =
      (cobsDecode y).map fun z => d ++ ((if l ≠ 0xFF#8 ∧ y ≠ [] then [0x00#8] else []) ++ z) := by
  have hf := cobsDecodeFrom_fuel y (d ++ y).length (by simp)
  have hn : ¬(l = 0x00#8 ∨ l.toNat > (d ++ y).length + 1) := by
    rw [List.length_append]
    exact not_or.mpr ⟨hl, by omega⟩
  have h255 : l.toNat < 255 ↔ l ≠ 0xFF#8 := by
    have := l.isLt
    rw [ne_eq, ← BitVec.toNat_inj, show (0xFF#8).toNat = 255 from rfl]
    omega
  rw [cobsDecode, List.length_cons, cobsDecodeFrom, if_neg hn, ← hd, List.take_left, List.drop_left, hf]
  simp only [h255]
  cases cobsDecode y <;> rfl

theorem lengthByte_toNat {r : List Byte} (hl : r.length ≤ 254) : (lengthByte r).toNat = r.length + 1 := by
  rw [lengthByte, BitVec.toNat_ofNat]
  omega

/-- No run has the length byte 0x00 (44_cobs.md R161). -/
theorem lengthByte_ne_zero {r : List Byte} (hl : r.length ≤ 254) : lengthByte r ≠ 0x00#8 :=
  fun h => by simpa [h] using lengthByte_toNat hl

/-- 0xFF is the length byte of the saturated runs alone (44_cobs.md R161). -/
theorem lengthByte_eq_saturated_iff {r : List Byte} (hl : r.length ≤ 254) :
    lengthByte r = 0xFF#8 ↔ r.length = 254 := by
  rw [← BitVec.toNat_inj, lengthByte_toNat hl, show (0xFF#8).toNat = 255 from rfl]
  omega

/-- An encoded run decodes to its data, and to the zero byte that ended it unless it is saturated or the last one. -/
theorem cobsDecode_encodeRun {r : List Byte} (y : List Byte) (hl : r.length ≤ 254) :
    cobsDecode (encodeRun r ++ y) =
      (cobsDecode y).map fun z => r ++ ((if r.length ≠ 254 ∧ y ≠ [] then [0x00#8] else []) ++ z) := by
  have h := cobsDecode_run y (lengthByte_ne_zero hl) (d := r) (by rw [lengthByte_toNat hl]; omega)
  simp only [ne_eq, lengthByte_eq_saturated_iff hl] at h
  exact h

/-- Decoding undoes encoding (44_cobs.md R172), run by run. -/
theorem cobsDecode_cobsEncode (x : List Byte) : cobsDecode (cobsEncode x) = some x := by
  induction x using run_induction with
  | saturated r y hr hl ih =>
    rw [cobsEncode_saturated y hr hl, cobsDecode_encodeRun _ (by omega), ih]
    simp [hl]
  | zero r y hr hl ih =>
    rw [cobsEncode_zero y hr hl, cobsDecode_encodeRun _ (by omega)]
    cases y with
    | nil => simp [show r.length ≠ 254 by omega, show cobsDecode [0x01#8] = some [] from rfl]
    | cons b y =>
      have hne : cobsEncode (b :: y) ≠ [] := fun e => by simp [e] at ih
      simp [show r.length ≠ 254 by omega, hne, ih]
  | last r hr hl =>
    rw [cobsEncode_last hr hl]
    split_ifs with h
    · rw [h]; rfl
    · have hd := cobsDecode_encodeRun [] (r := r) (by omega)
      rw [List.append_nil] at hd
      simp [hd]

/-! ### An encoding has no zero byte (44_cobs.md R166) -/

theorem nonZero_append {x y : List Byte} (hx : NonZero x) (hy : NonZero y) : NonZero (x ++ y) :=
  List.forall_mem_append.mpr ⟨hx, hy⟩

theorem nonZero_encodeRun {r : List Byte} (hr : NonZero r) (hl : r.length ≤ 254) : NonZero (encodeRun r) :=
  nonZero_cons (lengthByte_ne_zero hl) hr

theorem nonZero_cobsEncode (x : List Byte) : NonZero (cobsEncode x) := by
  induction x using run_induction with
  | saturated r y hr hl ih =>
    rw [cobsEncode_saturated y hr hl]
    exact nonZero_append (nonZero_encodeRun hr (by omega)) ih
  | zero r y hr hl ih =>
    rw [cobsEncode_zero y hr hl]
    refine nonZero_append (nonZero_encodeRun hr (by omega)) ?_
    split_ifs
    · exact nonZero_cons (by decide) nonZero_nil
    · exact ih
  | last r hr hl =>
    rw [cobsEncode_last hr hl]
    split_ifs
    · exact nonZero_nil
    · exact nonZero_encodeRun hr (by omega)

/-! ### The length of an encoding (44_cobs.md R173) -/

@[simp] theorem encodeRun_length (r : List Byte) : (encodeRun r).length = r.length + 1 := rfl

/-- Every run costs one byte, and so does the trailing empty run: at most one byte in 254, rounded up. -/
theorem cobsEncode_length_le (x : List Byte) : (cobsEncode x).length ≤ x.length + (x.length + 253) / 254 := by
  induction x using run_induction with
  | saturated r y hr hl ih =>
    rw [cobsEncode_saturated y hr hl, List.length_append, List.length_append, encodeRun_length]
    omega
  | zero r y hr hl ih =>
    rw [cobsEncode_zero y hr hl, List.length_append, List.length_append, List.length_cons, encodeRun_length]
    split_ifs
    · rw [List.length_singleton]; omega
    · omega
  | last r hr hl =>
    rw [cobsEncode_last hr hl]
    split_ifs with h
    · simp
    · have := List.length_pos_iff.mpr h
      rw [encodeRun_length]; omega

/-- An encoding of a non-empty input is longer than the input. -/
theorem length_lt_cobsEncode_length {x : List Byte} (hx : x ≠ []) : x.length < (cobsEncode x).length := by
  induction x using run_induction with
  | saturated r y hr hl ih =>
    rw [cobsEncode_saturated y hr hl, List.length_append, List.length_append, encodeRun_length]
    cases y with
    | nil => simp
    | cons b y => have := ih (List.cons_ne_nil b y); omega
  | zero r y hr hl ih =>
    rw [cobsEncode_zero y hr hl, List.length_append, List.length_append, List.length_cons, encodeRun_length]
    split_ifs with h
    · simp [h]
    · have := ih h; omega
  | last r hr hl =>
    rw [cobsEncode_last hr hl, if_neg hx, encodeRun_length]
    omega

/-! ### A packet (43_framer_commands.md R127, R129) -/

/-- BuildPacket is the encoding of Packet under its terminator. -/
theorem buildPacket_eq (m : List Byte) : buildPacket m = cobsEncode (packet m) ++ [0x00#8] := rfl

@[simp] theorem packet_length (m : List Byte) : (packet m).length = m.length + 2 := by
  rw [packet, List.length_append, checksumBytes_length]

theorem packet_take (m : List Byte) : (packet m).take ((packet m).length - 2) = m := by
  rw [packet_length, Nat.add_sub_cancel, packet, List.take_left]

theorem packet_drop (m : List Byte) : (packet m).drop ((packet m).length - 2) = checksumBytes (crc m) := by
  rw [packet_length, Nat.add_sub_cancel, packet, List.drop_left]

/-- Settles O52: the body is an encoding, without a zero byte, of `m.length + 2` bytes. -/
theorem frameGuarantees : Obligations.FrameGuarantees := by
  intro m
  have hne : packet m ≠ [] := List.ne_nil_of_length_pos (by rw [packet_length]; omega)
  have hlo := length_lt_cobsEncode_length hne
  have hhi := cobsEncode_length_le (packet m)
  rw [packet_length] at hlo hhi
  have hlen : (buildPacket m).length = (cobsEncode (packet m)).length + 1 := by
    rw [buildPacket_eq, List.length_append, List.length_singleton]
  exact ⟨_, buildPacket_eq m, fun h => nonZero_cobsEncode _ _ h rfl, by omega, by omega⟩

/-! ### The receiver (43_framer_commands.md R130) -/

/-- A word is its two bytes, the high one shifted up. -/
theorem word_eq_or (w : Word) : w = (hiByte w).setWidth 16 <<< 8 ||| (loByte w).setWidth 16 := by
  conv_lhs => rw [← joinBytes_hiByte_loByte w, joinBytes_eq_add]
  refine BitVec.add_eq_or_of_and_eq_zero _ _ ?_
  ext i hi
  simpa using fun h8 _ => BitVec.getLsbD_of_ge (loByte w) i h8

/-- Settles O53: the frame without its terminator is the encoding of Packet, and decoding undoes it. -/
theorem receiverCheck : Obligations.ReceiverCheck := by
  intro m
  refine ⟨packet m, ?_, rfl, packet_take m, _, _, packet_drop m, word_eq_or (crc m)⟩
  rw [← List.dropLast_eq_take, buildPacket_eq, List.dropLast_concat, cobsDecode_cobsEncode]

/-- The receiver's check accepts the frame of every message. -/
theorem receiveFrame_cobsEncode_packet (m : List Byte) : receiveFrame (cobsEncode (packet m)) = some m := by
  have hn : ¬(packet m).length < 2 := by rw [packet_length]; omega
  rw [receiveFrame, cobsDecode_cobsEncode]
  simp only [if_neg hn, packet_take, packet_drop, if_true]

/-- A stretch without a zero byte is cut off at the zero byte after it. -/
theorem splitFrames_append {f : List Byte} (y : List Byte) (hf : NonZero f) :
    splitFrames (f ++ 0x00#8 :: y) = f :: splitFrames y := by
  induction f with
  | nil => simp [splitFrames]
  | cons b f ih =>
    obtain ⟨hb, hf⟩ := List.forall_mem_cons.mp hf
    simp [splitFrames, hb, ih hf]

/-- The receiver of a stream that begins with a packet gets its message, and then those of the rest. -/
theorem receiveStream_buildPacket_append (m y : List Byte) :
    receiveStream (buildPacket m ++ y) = m :: receiveStream y := by
  rw [receiveStream, buildPacket_eq, List.append_assoc, List.singleton_append,
    splitFrames_append y (nonZero_cobsEncode _), List.filterMap_cons_some (receiveFrame_cobsEncode_packet m),
    receiveStream]

/-- Settles O54: packet by packet. -/
theorem frameStreamIsSelfDelimiting : Obligations.FrameStreamIsSelfDelimiting := by
  intro ms
  induction ms with
  | nil => rfl
  | cons m ms ih => rw [List.map_cons, List.flatten_cons, receiveStream_buildPacket_append, ih]

end Sys2Proof.Machine
end

section
/-! A frame on the port (43_framer_commands.md R128), alone and with other actions between its BYTE words (R131). -/

namespace Sys2Proof.Machine

/-- The word of END with any DATA, as a sum. -/
theorem endFrameWord_eq_add (d : Byte) : joinBytes 0x03#8 d = 0x0300#16 + d.setWidth 16 := joinBytes_eq_add _ d

/-- Settles O46: by `steps_frame`. -/
theorem frameSequenceComputesFrameOut : Obligations.FrameSequenceComputesFrameOut := by
  intro c t d m s rest hm hp
  rw [← startWord_eq_add, ← byteCommands_eq_map, ← endFrameWord_eq_add] at hp
  exact ⟨steps_frame c t d m s rest hm hp, rfl⟩

/-! ### Harmless actions change only ERR, CAUSE and the host's record -/

section
variable (c t : Bool) (x : List Byte) (p : List HostAction) (s : State)

/-- An error report inside a frame is one from before the frame. -/
theorem raiseError_afterBytes (e : Cause) : raiseError e ((s.openFrame c t).afterBytes x p) =
    ((raiseError e s).openFrame c t).afterBytes x p := by
  cases h : s.err with
  | true => rw [raiseError_later s e h]; exact raiseError_later _ e h
  | false => rw [raiseError_first s e h]; exact raiseError_first _ e h

/-- A command word that is harmless in a frame is a NOP or erroneous there (43_framer_commands.md R131). -/
theorem step_harmlessWord {w : Word} (hw : harmlessInFrame (command w) = true) :
    ∃ s' : State, s'.out = s.out ∧ step ((s.openFrame c t).afterBytes x (command w :: p)) =
      .next ((s'.openFrame c t).afterBytes x p) := by
  induction w using word_cases with
  | h hi lo =>
    obtain ⟨e, -, he⟩ | ⟨-, ⟨-, he⟩ | ⟨-, -, hm, -⟩ | ⟨rfl, -⟩ | ⟨rfl, -⟩ | ⟨rfl, -⟩⟩ :=
      step_word_inversion ((s.openFrame c t).afterBytes x (command (joinBytes hi lo) :: p)) hi lo p rfl
    · exact ⟨raiseError e s, raiseError_out s e, he.trans (congrArg _ (raiseError_afterBytes c t x p s e))⟩
    · exact ⟨s, rfl, he⟩
    · exact nomatch (show Mode.frame = .idle from hm)
    all_goals simp [harmlessInFrame, command] at hw

/-- A harmless action leaves the frame as it stands (43_framer_commands.md R131, 10_state.md R36). -/
theorem step_harmless {a : HostAction} (ha : harmlessInFrame a = true) :
    ∃ s' : State, s'.out = s.out ∧ step ((s.openFrame c t).afterBytes x (a :: p)) =
      .next ((s'.openFrame c t).afterBytes x p) := by
  cases a with
  | readStatus => exact ⟨s.recordRead _, rfl, step_readStatus _ p rfl⟩
  | readCrc => exact ⟨s.recordRead _, rfl, step_readCrc _ p rfl⟩
  | hardReset => cases ha
  | issue im =>
    cases im with
    | message m => cases ha
    | word w => exact step_harmlessWord c t x p s ha

end

theorem bytesAmong_cons_byteWord (b : Byte) (acts : List HostAction) :
    bytesAmong (command (byteWord b) :: acts) = b :: bytesAmong acts := by
  simp [bytesAmong, command, byteWord]

/-- No harmless action is a BYTE command. -/
theorem bytesAmong_cons_harmless {a : HostAction} (ha : harmlessInFrame a = true) (acts : List HostAction) :
    bytesAmong (a :: acts) = bytesAmong acts := by
  cases a with
  | readStatus | readCrc => rfl
  | hardReset => cases ha
  | issue im =>
    cases im with
    | message m => cases ha
    | word w =>
      have hw : w >>> 8 ≠ 2#16 := by
        intro h
        simp [harmlessInFrame, (shift_eq_iff w 0x02#8).mp h] at ha
      simp [bytesAmong, hw]

/-- BYTE words with harmless actions between them take the frame after `x` to the frame after `x` and the bytes among
them; only ERR, CAUSE and the host's record may differ. -/
theorem steps_interleaved (c t : Bool) (acts : List HostAction) (x : List Byte) (p : List HostAction) (s : State)
    (h : ∀ a ∈ acts, harmlessInFrame a = true ∨ ∃ b, a = command (byteWord b)) :
    ∃ s' : State, s'.out = s.out ∧ steps acts.length ((s.openFrame c t).afterBytes x (acts ++ p)) =
      .next ((s'.openFrame c t).afterBytes (x ++ bytesAmong acts) p) := by
  induction acts generalizing x s with
  | nil => exact ⟨s, rfl, by rw [show bytesAmong [] = [] from rfl, List.append_nil]; rfl⟩
  | cons a acts ih =>
    obtain ⟨ha, hacts⟩ := List.forall_mem_cons.mp h
    rw [List.length_cons, List.cons_append]
    obtain ha | ⟨b, rfl⟩ := ha
    · obtain ⟨s₁, ho₁, hs₁⟩ := step_harmless c t x (acts ++ p) s ha
      obtain ⟨s₂, ho₂, hs₂⟩ := ih x s₁ hacts
      exact ⟨s₂, ho₂.trans ho₁, by rw [steps_succ_of_step hs₁, hs₂, bytesAmong_cons_harmless ha]⟩
    · obtain ⟨s₂, ho₂, hs₂⟩ := ih (x ++ [b]) s hacts
      refine ⟨s₂, ho₂, ?_⟩
      rw [steps_succ_of_step (step_afterBytes b x (acts ++ p) (s.openFrame c t) rfl), hs₂, bytesAmong_cons_byteWord,
        List.append_assoc, List.singleton_append]

/-- Settles O47: START, then `steps_interleaved`, then END. -/
theorem interleavedActionsLeaveFrameBytes : Obligations.InterleavedActionsLeaveFrameBytes := by
  intro c t d acts s rest hm hacts hp
  rw [← startWord_eq_add, ← endFrameWord_eq_add] at hp
  simp only [← byteWord_eq_add] at hacts
  obtain ⟨s', ho, hs'⟩ := steps_interleaved c t acts [] (command (joinBytes 0x03#8 d) :: rest) s hacts
  refine ⟨s'.afterFrame c t (bytesAmong acts) rest, ?_, congrArg (· ++ _) ho, rfl, rfl, rfl, rfl, rfl, rfl, rfl⟩
  rw [show acts.length + 2 = acts.length + 1 + 1 from rfl, steps_succ_of_step (step_startWord c t s _ hm hp),
    openFrame_eq_afterBytes]
  exact (steps_add hs' 1).trans (steps_succ_of_step (step_end_afterBytes c t d _ rest s') 0)

end Sys2Proof.Machine
end

section
/-! The commands one by one (43_framer_commands.md R121 to R126): what each does to the state, and its words on the
port. -/

namespace Sys2Proof.Machine

/-! ### Command words on the port -/

section
variable (s : State) (rest : List HostAction)

/-- The step runs the instruction its image decodes to (43_framer_commands.md R120). -/
theorem step_decoded {im : Image} {i : Instr} (hp : s.pending = .issue im :: rest) (hd : decode im = .ok i) :
    step s = exec i (s.setPending rest) := by
  rw [step_perform s _ rest hp, perform, hd]

theorem step_byte (d : Byte) (hp : s.pending = command (joinBytes 0x02#8 d) :: rest) :
    step s = exec (.byte d) (s.setPending rest) :=
  step_word s _ _ rest hp (decodeWord_byte d)

/-- A START word with a reserved bit set, in either mode (30_encoding.md R76). -/
theorem step_startReserved {d : Byte} (hd : startReserved d ≠ 0#6)
    (hp : s.pending = command (joinBytes 0x01#8 d) :: rest) :
    step s = .next (raiseError .reservedField (s.setPending rest)) :=
  step_rejected s _ _ rest hp (decodeWord_reserved d hd)

/-- A word of no opcode (30_encoding.md R75). -/
theorem step_illegal {h : Byte} (hh : 5 ≤ h.toNat) (d : Byte) (hp : s.pending = command (joinBytes h d) :: rest) :
    step s = .next (raiseError .illegalOpcode (s.setPending rest)) :=
  step_rejected s _ _ rest hp (decodeWord_illegal h d hh)

end

/-- Settles O10: the table word stands at the head of the port, so both clauses are `step_decoded`. -/
theorem stepRunsDecodedInstruction : Obligations.StepRunsDecodedInstruction := by
  refine ⟨fun im i s rest hp hd => step_decoded s rest hp hd, fun nbits w i s hd => ?_⟩
  have hd' : decode (tableImage nbits w) = .ok i := by
    unfold decodeTableWord at hd
    split at hd <;> cases hd
    assumption
  exact step_decoded (s.withFetchWord nbits w) s.pending rfl hd'

/-! ### NOP -/

/-- Settles O1: NOP means nothing, and its word is taken. -/
theorem nopChangesNothing : Obligations.NopChangesNothing := by
  refine ⟨fun _ _ => rfl, fun d s rest hp => ?_, _, rfl, rfl, rfl⟩
  exact step_nop d s rest (hp.trans (by rw [joinBytes_eq_add]; rfl))

/-! ### START -/

/-- START's reserved bits under a mask. -/
theorem startReserved_eq_zero_iff_and (d : Byte) : startReserved d = 0#6 ↔ d &&& 0xFC#8 = 0x00#8 := by
  revert d; decide

/-- Settles O2: the reserved bits first, then the mode. -/
theorem startOpensFrame : Obligations.StartOpensFrame := by
  simp only [Obligations.StartOpensFrame, ne_eq, ← startReserved_eq_zero_iff_and, ← startWord_eq_add]
  refine ⟨fun d s hd hm => execStart_opens s d hd hm, fun d s hd hm => execStart_busy s d hd hm,
    fun d s hd => execStart_reserved s d hd, fun c t s rest hm hp => step_startWord c t s rest hm hp,
    fun d s rest hd hp => ?_, _, rfl, by decide⟩
  exact step_startReserved s rest hd (hp.trans (by rw [joinBytes_eq_add]; rfl))

/-! ### BYTE -/

/-- Settles O3: `cobsPush` of the byte after the CRC fold, by its three cases. -/
theorem byteFoldsCrcAndPushes : Obligations.ByteFoldsCrcAndPushes := by
  refine ⟨fun d s hm _ hd => ?_, fun d s hm hd hl => ?_, fun d s hm hd hl => ?_, fun d s hm => execByte_idle s d hm,
    fun d s rest hp => ?_⟩
  · subst hd
    rw [execByte_frame s _ hm, cobsPush_zero]; rfl
  · rw [execByte_frame s d hm, cobsPush_saturate (s.setCrc (crcStep s.crc d)) d hd hl]; rfl
  · rw [execByte_frame s d hm, cobsPush_extend (s.setCrc (crcStep s.crc d)) d hd hl]; rfl
  · exact step_byte s rest d (hp.trans (by rw [joinBytes_eq_add]; rfl))

/-! ### END -/

theorem loByte_eq_setWidth (w : Word) : loByte w = w.setWidth 8 := by
  conv_rhs => rw [← joinBytes_hiByte_loByte w, joinBytes_setWidth]

theorem hiByte_eq_shift (w : Word) : hiByte w = (w >>> 8).setWidth 8 := by
  conv_rhs => rw [← joinBytes_hiByte_loByte w, joinBytes_shift]
  simp

/-- END empties the stage, adds CobsFinish's bytes and the terminator to OUT, and keeps every other field
(43_framer_commands.md R124). -/
theorem closeFrame_eq (s : State) : (emitTerminator (cobsFinish (pushChecksum s))).setMode .idle =
    { s with
      mode := .idle, run := [], lastZero := false
      out := (cobsFinish (pushChecksum s)).out ++ if s.termEn then [0x00#8] else [] } := by
  apply State.ext
  case out => rw [State.setMode_out, emitTerminator_out, cobsFinish_termEn, pushChecksum_termEn]
  all_goals simp

/-- END where no byte was pushed before: only the checksum bytes are encoded. -/
theorem cobsFinish_pushChecksum_out_of_empty (s : State) (hr : s.run = []) (hz : s.lastZero = false) :
    (cobsFinish (pushChecksum s)).out = s.out ++ cobsEncode (if s.crcEn then checksumBytes s.crc else []) := by
  have hs := pushChecksum_streamed [] s
  rw [streamed_nil hr hz, List.nil_append] at hs
  rw [hs, cobsFinish_streamed_out]

/-- Settles O4: by `closeFrame_eq`; the corner cases encode the checksum bytes 0, 0, or nothing. -/
theorem endClosesFrame : Obligations.EndClosesFrame := by
  refine ⟨fun d s p hm _ hp => ?_, fun d s hm => execEnd_idle s d hm, fun d s rest hp => ?_,
    fun d s hm hr hz hc => ⟨_, execEnd_frame s d hm, ?_⟩, _, rfl, by decide⟩
  · rw [← loByte_eq_setWidth, ← hiByte_eq_shift] at hp
    obtain rfl : p = pushChecksum s := hp
    rw [execEnd_frame s d hm, closeFrame_eq, cobsFinish_out, List.append_assoc]; rfl
  · exact step_endFrame d s rest (hp.trans (by rw [endFrameWord_eq_add]))
  · simp only [closeFrame_eq, cobsFinish_pushChecksum_out_of_empty s hr hz, hc, List.append_assoc]
    cases s.crcEn <;> rfl

/-! ### SRESET -/

/-- STATUS reads 0x0000 after a reset (10_state.md R34). -/
theorem statusView_clearBlock (s : State) : statusView s.clearBlock = 0x0000#16 :=
  (show statusView s.clearBlock = statusView State.reset from rfl).trans (by decide)

/-- Settles O5: SRESET clears the block. -/
theorem sresetClearsBlock : Obligations.SresetClearsBlock := by
  refine ⟨fun d s => ⟨s.clearBlock, rfl, statusView_clearBlock s, rfl⟩, fun d s rest hp => ?_, _, rfl, by decide,
    by decide⟩
  exact step_sreset d s rest (hp.trans (by rw [joinBytes_eq_add]; rfl))

/-! ### The unassigned opcodes -/

/-- Settles O6: by `step_illegal`. -/
theorem illegalOpcodeOnlyRecordsError : Obligations.IllegalOpcodeOnlyRecordsError := by
  refine ⟨fun h d s rest hh hp => ?_, _, rfl, by decide⟩
  exact step_illegal s rest hh d (hp.trans (by rw [joinBytes_eq_add]))

end Sys2Proof.Machine
end

section
/-! CobsEncode, CobsDecode and the streaming stage as 44_cobs.md states them: run by run (R160 to R166, R171), undone by
decoding (R172), bounded in length (R173), and computed one byte at a time (R170). -/

namespace Sys2Proof.Machine

/-- Settles O43: `cobsDecode_cobsEncode` and `nonZero_cobsEncode`, both by induction over the runs of the input. -/
theorem cobsRoundTrip : Obligations.CobsRoundTrip :=
  fun x => ⟨cobsDecode_cobsEncode x, nonZero_cobsEncode x⟩

/-- Settles O40: `nonZero_cobsEncode` at the byte 0x00. -/
theorem cobsEncodeHasNoZeroByte : Obligations.CobsEncodeHasNoZeroByte :=
  fun x h => nonZero_cobsEncode x _ h rfl

/-- Settles O38: one lemma for each way a run ends. -/
theorem cobsEncodeLoop : Obligations.CobsEncodeLoop := by
  refine ⟨cobsEncode_nil, fun r y hr hl => ?_, fun r y hr hl => cobsEncode_zero y hr hl, fun r hr hpos hl => ?_⟩
  · rw [cobsEncode_saturated y hr hl, encodeRun, (lengthByte_eq_saturated_iff hl.le).mpr hl, List.cons_append]
  · rw [cobsEncode_last hr hl, if_neg (List.ne_nil_of_length_pos hpos)]
    rfl

/-! ### The runs of an encoding (44_cobs.md R161) -/

/-- `rs` are the runs that encode `x`: under their length bytes they are CobsEncode(x), and they stand for `x`. -/
structure EncodedRuns (x : List Byte) (rs : List (List Byte)) : Prop where
  nonempty : rs ≠ []
  encode : cobsEncode x = rs.flatMap encodeRun
  join : x = joinRuns rs
  runs : ∀ r ∈ rs, r.length ≤ 254 ∧ NonZero r

/-- Before further runs, a run stands for its data and for a zero byte unless it is saturated. -/
theorem joinRuns_cons (r : List Byte) {rs : List (List Byte)} (h : rs ≠ []) :
    joinRuns (r :: rs) = r ++ ((if r.length = 254 then [] else [0x00#8]) ++ joinRuns rs) := by
  cases rs with
  | nil => exact absurd rfl h
  | cons r' rs => rfl

/-- One run is an encoding if nothing follows it. -/
theorem EncodedRuns.single {r : List Byte} (h : NonZero r) (hl : r.length ≤ 254) (he : cobsEncode r = encodeRun r) :
    EncodedRuns r [r] where
  nonempty := List.cons_ne_nil r []
  encode := by rw [he, List.flatMap_singleton]
  join := rfl
  runs := List.forall_mem_singleton.mpr ⟨hl, h⟩

/-- A run before further ones. -/
theorem EncodedRuns.cons {r x y : List Byte} {rs : List (List Byte)} (hy : EncodedRuns y rs) (h : NonZero r)
    (hl : r.length ≤ 254) (he : cobsEncode x = encodeRun r ++ cobsEncode y)
    (hx : x = r ++ ((if r.length = 254 then [] else [0x00#8]) ++ y)) : EncodedRuns x (r :: rs) where
  nonempty := List.cons_ne_nil r rs
  encode := by rw [he, hy.encode, List.flatMap_cons]
  join := by rw [joinRuns_cons r hy.nonempty, ← hy.join, hx]
  runs := List.forall_mem_cons.mpr ⟨⟨hl, h⟩, hy.runs⟩

/-- A zero byte at the end of the input leaves an empty last run (44_cobs.md R163). -/
theorem EncodedRuns.trailing {r : List Byte} (h : NonZero r) (hl : r.length ≤ 253) :
    EncodedRuns (r ++ [0x00#8]) [r, []] where
  nonempty := List.cons_ne_nil r [[]]
  encode := by rw [cobsEncode_zero [] h hl]; rfl
  join := by rw [joinRuns_cons r (List.cons_ne_nil [] []), if_neg (by omega)]; rfl
  runs := List.forall_mem_cons.mpr ⟨⟨by omega, h⟩, List.forall_mem_singleton.mpr ⟨Nat.zero_le _, nonZero_nil⟩⟩

theorem exists_encodedRuns (x : List Byte) (hx : x ≠ []) : ∃ rs, EncodedRuns x rs := by
  induction x using run_induction with
  | saturated r y hr hl ih =>
    have he := cobsEncode_saturated y hr hl
    by_cases hy : y = []
    · subst hy
      rw [cobsEncode_nil, List.append_nil, List.append_nil] at he
      exact ⟨[r], by simpa using EncodedRuns.single hr hl.le he⟩
    · obtain ⟨rs, h⟩ := ih hy
      exact ⟨r :: rs, h.cons hr hl.le he (by rw [if_pos hl, List.nil_append])⟩
  | zero r y hr hl ih =>
    by_cases hy : y = []
    · exact ⟨[r, []], hy ▸ EncodedRuns.trailing hr hl⟩
    · obtain ⟨rs, h⟩ := ih hy
      have he := cobsEncode_zero y hr hl
      rw [if_neg hy] at he
      exact ⟨r :: rs, h.cons hr (by omega) he (by rw [if_neg (by omega), List.singleton_append])⟩
  | last r hr hl =>
    exact ⟨[r], EncodedRuns.single hr (by omega) (by rw [cobsEncode_last hr hl, if_neg hx])⟩

/-- Settles O39: the runs of `exists_encodedRuns`, whose length bytes do not wrap. -/
theorem cobsEncodingIsRunsUnderLengthBytes : Obligations.CobsEncodingIsRunsUnderLengthBytes := by
  intro x hx
  obtain ⟨rs, h⟩ := exists_encodedRuns x hx
  refine ⟨rs, h.nonempty, h.encode, h.join, fun r hr => ?_⟩
  obtain ⟨hl, hn⟩ := h.runs r hr
  exact ⟨hl, lengthByte_toNat hl, hn⟩

/-! ### The streaming stage (44_cobs.md R170) -/

/-- Pushes take the stage of `x` to the stage of `x` and the bytes pushed. -/
theorem foldl_cobsPush_streamed (m x : List Byte) (s : State) :
    m.foldl (fun u b => cobsPush b u) (s.streamed x) = s.streamed (x ++ m) := by
  induction m generalizing x with
  | nil => rw [List.append_nil]; rfl
  | cons b m ih => rw [List.foldl_cons, cobsPush_streamed, ih, List.append_assoc, List.singleton_append]

/-- Settles O41: the stage after `x` is `State.streamed x` of the empty one. -/
theorem streamingStageComputesCobsEncode : Obligations.StreamingStageComputesCobsEncode := by
  intro x s hr hz
  have hp := foldl_cobsPush_streamed x [] s
  rw [streamed_nil hr hz, List.nil_append] at hp
  exact ⟨s.streamed x, hp.symm, rfl, rfl, decide_eq_true_iff, cobsFinish_streamed_out x s, cobsFinish_empties_run _,
    cobsFinish_lastZero _⟩

/-! ### CobsDecode (44_cobs.md R171, R174) -/

/-- The two decode errors: the length byte 0x00, and one that announces more bytes than are left. -/
theorem cobsDecode_error {l : Byte} {y : List Byte} (h : l = 0x00#8 ∨ l.toNat > y.length + 1) :
    cobsDecode (l :: y) = none := by
  rw [cobsDecode, List.length_cons, cobsDecodeFrom, if_pos h]

/-- Settles O42: `cobsDecode_error` and `cobsDecode_run`. -/
theorem cobsDecodeLoop : Obligations.CobsDecodeLoop :=
  ⟨cobsDecode_nil, fun _ _ h => cobsDecode_error h, fun _ _ y hl hd => cobsDecode_run y hl hd⟩

/-- What decodes begins with a non-zero length byte and the data bytes it announces, and the rest decodes. -/
theorem exists_run_of_cobsDecode {l : Byte} {y : List Byte} (h : cobsDecode (l :: y) ≠ none) :
    ∃ d z, y = d ++ z ∧ l ≠ 0x00#8 ∧ d.length = l.toNat - 1 ∧ cobsDecode z ≠ none := by
  obtain ⟨hl, hle⟩ := not_or.mp (mt cobsDecode_error h)
  have hd : (y.take (l.toNat - 1)).length = l.toNat - 1 := by rw [List.length_take]; omega
  refine ⟨_, _, (List.take_append_drop (l.toNat - 1) y).symm, hl, hd, fun hz => h ?_⟩
  rw [← List.take_append_drop (l.toNat - 1) y, cobsDecode_run _ hl hd, hz, Option.map_none]

/-- Decoding goes on after what decodes: it puts the same bytes before the decoding of anything that follows. -/
theorem cobsDecode_append (y : List Byte) (h : cobsDecode y ≠ none) :
    ∃ w, ∀ z ≠ [], cobsDecode (y ++ z) = (cobsDecode z).map (w ++ ·) := by
  induction hn : y.length using Nat.strong_induction_on generalizing y with
  | _ n ih =>
    cases y with
    | nil => exact ⟨[], fun z _ => by simp⟩
    | cons l y =>
      obtain ⟨d, y, rfl, hl, hd, hy⟩ := exists_run_of_cobsDecode h
      obtain ⟨w, hw⟩ := ih y.length (by rw [← hn, List.length_cons, List.length_append]; omega) y hy rfl
      refine ⟨d ++ ((if l ≠ 0xFF#8 then [0x00#8] else []) ++ w), fun z hz => ?_⟩
      rw [List.cons_append, List.append_assoc, cobsDecode_run _ hl hd, hw z hz, Option.map_map]
      simp [hz, Function.comp_def]

/-- Settles O45: after what decodes, both endings decode to the data of the saturated run. -/
theorem cobsDecodeIsNotInjective : Obligations.CobsDecodeIsNotInjective := by
  refine ⟨cobsDecode_nil, rfl, fun y r hr hy => ?_⟩
  have hplain : cobsDecode (0xFF#8 :: r) = some r := by
    simpa using cobsDecode_run [] (l := 0xFF#8) (d := r) (by decide) hr
  have htrailing : cobsDecode (0xFF#8 :: (r ++ [0x01#8])) = some r := by
    simpa [show cobsDecode [0x01#8] = some [] from rfl] using
      cobsDecode_run [0x01#8] (l := 0xFF#8) (d := r) (by decide) hr
  obtain ⟨w, hw⟩ := cobsDecode_append y hy
  rw [hw _ (List.cons_ne_nil _ _), hw _ (List.cons_ne_nil _ _), hplain, htrailing]
  exact ⟨Option.some_ne_none _, rfl⟩

/-! ### The length of an encoding (44_cobs.md R173) -/

/-- Without a zero byte only the cap ends a run, so every run but the last is saturated. -/
theorem cobsEncode_length_of_nonZero (x : List Byte) (h : NonZero x) :
    (cobsEncode x).length = x.length + (x.length + 253) / 254 := by
  induction x using run_induction with
  | saturated r y hr hl ih =>
    rw [cobsEncode_saturated y hr hl, List.length_append, List.length_append, encodeRun_length,
      ih (List.forall_mem_append.mp h).2]
    omega
  | zero r y hr hl ih => exact absurd rfl (h 0x00#8 (List.mem_append_right r List.mem_cons_self))
  | last r hr hl =>
    rw [cobsEncode_last hr hl]
    split_ifs with hnil
    · simp [hnil]
    · have := List.length_pos_iff.mpr hnil
      rw [encodeRun_length]; omega

/-- Settles O44: the bounds of every encoding, and the upper one reached without a zero byte. -/
theorem cobsEncodeLength : Obligations.CobsEncodeLength := by
  refine ⟨rfl, fun x hx => ?_⟩
  have hpos := List.length_pos_iff.mpr hx
  have hceil : (x.length + 253) / 254 = 1 + (x.length - 1) / 254 := by omega
  have hhi := cobsEncode_length_le x
  refine ⟨length_lt_cobsEncode_length hx, by omega, fun h0 => ?_⟩
  rw [cobsEncode_length_of_nonZero x fun b hb h => h0 (h ▸ hb), hceil, Nat.add_assoc]

end Sys2Proof.Machine
end

section
/-! Errors (60_exceptions.md R190 to R200): which words report one and which cause, that no report changes what the block
does afterwards, and that the machine goes on. -/

namespace Sys2Proof.Machine

/-! ### `StepTo` is the step -/

/-- A START word that is not erroneous has its reserved bits 0 (60_exceptions.md R193). -/
theorem startReserved_of_errorOf {m : Mode} {d : Byte} (h : errorOf m (joinBytes 0x01#8 d) = none) :
    startReserved d = 0#6 := by
  by_contra hr
  simp [errorOf_joinBytes, hr] at h

/-- An erroneous word only records its error (60_exceptions.md R192). -/
theorem step_erroneous {s : State} {w : Word} {c : Cause} {rest : List HostAction}
    (hp : s.pending = command w :: rest) (he : errorOf s.mode w = some c) :
    step s = .next (raiseError c (s.setPending rest)) := by
  induction w using word_cases with
  | h hi lo =>
    obtain ⟨c', he', e⟩ | ⟨hn, -⟩ := step_word_inversion s hi lo rest hp
    · rw [e, Option.some.inj (he'.symm.trans he)]
    · exact nomatch hn.symm.trans he

/-- The step answers what `StepTo` says: the converse of `step_stepTo`. -/
theorem StepTo.step_eq {s t : State} (h : StepTo s t) : step s = .next t := by
  cases h with
  | idle hp => exact step_idle s hp
  | message m rest hp => exact step_message s m rest hp
  | readStatus rest hp | readCrc rest hp | hardReset rest hp => exact step_perform s _ rest hp
  | error w c rest hp he => exact step_erroneous hp he
  | nop d rest hp _ => exact step_nop d s rest hp
  | start d rest hp he hm =>
    have hr := startReserved_of_errorOf he
    exact (step_word s _ _ rest hp (decodeWord_start d hr)).trans (execStart_opens (s.setPending rest) d hr hm)
  | byte d rest hp _ hm => exact step_byteWord d s rest hm hp
  | endFrame d rest hp _ hm => exact (step_endFrame d s rest hp).trans (execEnd_frame (s.setPending rest) d hm)
  | sreset d rest hp _ => exact step_sreset d s rest hp

/-! ### Erroneous words (60_exceptions.md R192 to R194) -/

/-- Settles O19: an erroneous word by `step_erroneous`, any other by what a step does to ERR and CAUSE. -/
theorem erroneousCommandsAndPrecedence : Obligations.ErroneousCommandsAndPrecedence := by
  intro w s rest hp
  refine ⟨fun c he => step_erroneous hp he, fun he => ?_⟩
  obtain ⟨t, ht, hr, -⟩ := errorIsStickyAndFirstCauseIsKept s
  refine ⟨t, ht, ?_⟩
  by_cases hw : w >>> 8 = 4#16
  · simpa [hp, command, hw] using hr
  · simpa [hp, command, hw, he] using hr

/-! ### A report influences nothing (60_exceptions.md R200) -/

/-- `s` with another error report, and another record of the values the host has read. -/
def State.withReport (e : Bool) (c : Cause) (r : List ViewRead) (s : State) : State :=
  { s with err := e, cause := c, reads := r }

/-- `sameButError` relates a state to itself under any report, and to no other. -/
theorem sameButError_iff {s t : State} : sameButError s t ↔ ∃ e c r, t = s.withReport e c r := by
  constructor
  · rintro ⟨h1, h2, h3, h4, h5, h6, h7, h8⟩
    exact ⟨t.err, t.cause, t.reads, by simp [State.withReport, h1, h2, h3, h4, h5, h6, h7, h8]⟩
  · rintro ⟨e, c, r, rfl⟩
    exact ⟨rfl, rfl, rfl, rfl, rfl, rfl, rfl, rfl⟩

section
variable (e : Bool) (c : Cause) (r : List ViewRead) (s : State)

theorem sameButError_withReport : sameButError s (s.withReport e c r) := sameButError_iff.2 ⟨e, c, r, rfl⟩

/-- The COBS stage does not read the report (44_cobs.md R168, R169). -/
theorem cobsPush_withReport (b : Byte) : cobsPush b (s.withReport e c r) = (cobsPush b s).withReport e c r := by
  simp only [cobsPush, apply_ite (State.withReport e c r)]; rfl

theorem cobsFinish_withReport : cobsFinish (s.withReport e c r) = (cobsFinish s).withReport e c r := by
  simp only [cobsFinish, apply_ite (State.withReport e c r)]; rfl

theorem pushChecksum_withReport : pushChecksum (s.withReport e c r) = (pushChecksum s).withReport e c r := by
  simp only [pushChecksum, apply_ite (State.withReport e c r), ← cobsPush_withReport]; rfl

theorem emitTerminator_withReport : emitTerminator (s.withReport e c r) = (emitTerminator s).withReport e c r := by
  simp only [emitTerminator, apply_ite (State.withReport e c r)]; rfl

/-- END does not read the report (43_framer_commands.md R124). -/
theorem closeFrame_withReport : emitTerminator (cobsFinish (pushChecksum (s.withReport e c r))) =
    (emitTerminator (cobsFinish (pushChecksum s))).withReport e c r := by
  rw [pushChecksum_withReport, cobsFinish_withReport, emitTerminator_withReport]

end

/-- Under another report the same case of `StepTo` applies, and its answer differs in the report alone. -/
theorem StepTo.withReport {s t : State} (h : StepTo s t) (e : Bool) (c : Cause) (r : List ViewRead) :
    ∃ t', StepTo (s.withReport e c r) t' ∧ sameButError t t' := by
  cases h with
  | idle hp => exact ⟨_, .idle hp, sameButError_withReport ..⟩
  | message m rest hp => exact ⟨_, .message m rest hp, sameButError_withReport e c r (feedMessage m (s.setPending rest))⟩
  | readStatus rest hp => exact ⟨_, .readStatus rest hp, sameButError_withReport e c _ (s.setPending rest)⟩
  | readCrc rest hp => exact ⟨_, .readCrc rest hp, sameButError_withReport e c _ (s.setPending rest)⟩
  | hardReset rest hp =>
    exact ⟨_, .hardReset rest hp, sameButError_withReport false .noError r (s.setPending rest).clearBlock⟩
  | error w k rest hp he => exact ⟨_, .error w k rest hp he, by simp [sameButError, State.withReport]⟩
  | nop d rest hp he => exact ⟨_, .nop d rest hp he, sameButError_withReport e c r (s.setPending rest)⟩
  | start d rest hp he hm => exact ⟨_, .start d rest hp he hm, sameButError_withReport e c r (State.openFrame _ _ _)⟩
  | byte d rest hp he hm =>
    have hc := cobsPush_withReport e c r ((s.setPending rest).setCrc (crcStep s.crc d)) d
    exact ⟨_, .byte d rest hp he hm, sameButError_iff.2 ⟨e, c, r, hc⟩⟩
  | endFrame d rest hp he hm =>
    have hc := congrArg (State.setMode .idle) (closeFrame_withReport e c r (s.setPending rest))
    exact ⟨_, .endFrame d rest hp he hm, sameButError_iff.2 ⟨e, c, r, hc⟩⟩
  | sreset d rest hp he =>
    exact ⟨_, .sreset d rest hp he, sameButError_withReport false .noError r (s.setPending rest).clearBlock⟩

/-- Settles O21: by `StepTo.withReport`. -/
theorem errorReportDoesNotChangeBehaviour : Obligations.ErrorReportDoesNotChangeBehaviour := by
  intro s s' hs
  obtain ⟨e, c, r, rfl⟩ := sameButError_iff.1 hs
  obtain ⟨t, ht, h⟩ := step_stepTo s
  obtain ⟨t', h', htt'⟩ := h.withReport e c r
  exact ⟨t, t', ht, h'.step_eq, htt'⟩

/-! ### The machine goes on (60_exceptions.md R190) -/

/-- What every step answers with and keeps, any number of steps answer with and keep. -/
theorem steps_keep {P : State → Prop} (hstep : ∀ s, P s → ∃ t, step s = .next t ∧ P t) (k : Nat) (s : State)
    (hs : P s) : ∃ t, steps k s = .next t ∧ P t := by
  induction k generalizing s with
  | zero => exact ⟨s, rfl, hs⟩
  | succ k ih =>
    obtain ⟨t, ht, hP⟩ := hstep s hs
    rw [steps_succ_of_step ht]
    exact ih t hP

/-- Settles O24: every step keeps R30, so any number of steps do. -/
theorem machineNeverStops : Obligations.MachineNeverStops := steps_keep stepKeepsRunInvariant

end Sys2Proof.Machine
end

section
/-! Reset and abort, and how much one command emits (70_reset_and_hazards.md R220 to R232). -/

namespace Sys2Proof.Machine

/-! ### Hardware reset (70_reset_and_hazards.md R220, R221) -/

theorem step_hardReset (s : State) (rest : List HostAction) (hp : s.pending = .hardReset :: rest) :
    step s = .next (s.setPending rest).clearBlock :=
  step_perform s _ rest hp

/-- Settles O25: the hardware reset is `clearBlock`, which is what SRESET means. -/
theorem hardResetSetsEveryElement : Obligations.HardResetSetsEveryElement := by
  refine ⟨fun s rest hp => ?_, by decide⟩
  exact ⟨_, step_hardReset s rest hp, statusView_clearBlock _, rfl, rfl, fun _ => rfl⟩

/-! ### SYNC after an abort (70_reset_and_hazards.md R226) -/

/-- What stands after a zero byte is split as if the stream began there. -/
theorem exists_splitFrames_append_zero (x : List Byte) :
    ∃ f fs, ∀ y, splitFrames (x ++ 0x00#8 :: y) = f :: fs ++ splitFrames y := by
  induction x with
  | nil => exact ⟨[], [], fun y => by simp [splitFrames]⟩
  | cons b x ih =>
    obtain ⟨f, fs, h⟩ := ih
    by_cases hb : b = 0x00#8
    · exact ⟨[], f :: fs, fun y => by simp [splitFrames, hb, h]⟩
    · exact ⟨b :: f, fs, fun y => by simp [splitFrames, hb, h]⟩

theorem exists_receiveStream_append_zero (x : List Byte) :
    ∃ earlier, ∀ y, receiveStream (x ++ 0x00#8 :: y) = earlier ++ receiveStream y := by
  obtain ⟨f, fs, h⟩ := exists_splitFrames_append_zero x
  exact ⟨(f :: fs).filterMap receiveFrame, fun y => by rw [receiveStream, h, List.filterMap_append, receiveStream]⟩

/-- SYNC and SEND from IDLE are two whole frames, the first of them empty (30_encoding.md R80). -/
theorem steps_sync_send (m : List Byte) (s : State) (rest : List HostAction) (hm : s.mode = .idle)
    (hp : s.pending = (assembleLine .sync).map command ++ ((assembleLine (.send m)).map command ++ rest)) :
    steps (m.length + 4) s =
      .next ((s.afterFrame false true [] ((assembleLine (.send m)).map command ++ rest)).afterFrame true true m rest) := by
  have hlen : m.length + 4 = (frameWords false true []).length + (frameWords true true m).length := by
    simp only [frameWords, List.length_cons, List.length_append, List.length_map, List.length_nil]
    omega
  rw [hlen, steps_add (steps_frameWords false true [] s _ hm hp)]
  exact steps_frameWords true true m _ rest rfl rfl

/-- Settles O55: either abort clears the block, `steps_sync_send` gives OUT, and SYNC's zero byte ends whatever the
receiver had of the aborted frame. -/
theorem resynchronisationAfterAbort : Obligations.ResynchronisationAfterAbort := by
  intro a m s rest ha hp
  have habort : ∀ p, s.pending = a :: p → step s = .next (s.setPending p).clearBlock := by
    obtain rfl | ⟨d, rfl⟩ := ha
    · exact step_hardReset s
    · exact fun p hp => step_sreset d s p (hp.trans (by rw [joinBytes_eq_add]; rfl))
  have hsteps := (steps_succ_of_step (habort _ hp) _).trans (steps_sync_send m _ rest rfl rfl)
  have hout : s.out ++ [0x00#8] ++ buildPacket m = s.out ++ 0x00#8 :: buildPacket m := List.append_assoc ..
  have hm : receiveStream (buildPacket m) = [m] := by simpa using frameStreamIsSelfDelimiting [m]
  obtain ⟨earlier, h⟩ := exists_receiveStream_append_zero s.out
  exact ⟨_, hsteps, hout, rfl, earlier, (congrArg receiveStream hout).trans ((h _).trans (hm ▸ rfl))⟩

/-! ### Bytes emitted by one command (70_reset_and_hazards.md R232) -/

theorem cobsFinish_out_length (s : State) : (cobsFinish s).out.length =
    s.out.length + if s.run ≠ [] then s.run.length + 1 else if s.lastZero then 1 else 0 := by
  rw [cobsFinish_out, List.length_append]
  split_ifs <;> rfl

/-- One more byte makes what CobsFinish brings OUT to one byte longer, or two if the stage was empty. -/
theorem cobsFinish_cobsPush_out_length (b : Byte) (s : State) :
    (cobsFinish (cobsPush b s)).out.length =
      (cobsFinish s).out.length + if s.run = [] ∧ s.lastZero = false then 2 else 1 := by
  rw [cobsFinish_out_length, cobsFinish_out_length]
  obtain ⟨-, ho, hr, hz⟩ | ⟨-, hl, ho, hr, hz⟩ | ⟨-, hl, ho, hr, hz⟩ := cobsPush_cases s b
  · rw [ho, hr, hz]
    cases s.run <;> cases s.lastZero <;> simp
  · have hne : s.run ≠ [] := List.ne_nil_of_length_pos (by omega)
    simp [ho, hr, hz, hne, hl]
  · rw [ho, hr, hz]
    cases s.run <;> cases s.lastZero <;> simp <;> omega

/-- The checksum and CobsFinish emit at most 257 bytes from a run that R30 allows. -/
theorem cobsFinish_pushChecksum_out_length_le (s : State) (hl : s.run.length ≤ 253) :
    (cobsFinish (pushChecksum s)).out.length ≤ s.out.length + 257 := by
  have hs := cobsFinish_out_length s
  rw [pushChecksum]
  split
  · rw [cobsFinish_cobsPush_out_length, cobsFinish_cobsPush_out_length]
    by_cases hr : s.run = []
    · simp only [hr, ne_eq, not_true_eq_false, if_false] at hs
      split_ifs at hs ⊢ <;> omega
    · simp only [hr, ne_eq, not_false_eq_true, if_true, false_and, if_false] at hs ⊢
      split_ifs <;> omega
  · split_ifs at hs <;> omega

/-- A high checksum byte that saturates the run leaves the stage empty, so the low byte costs two more. -/
theorem cobsFinish_pushChecksum_out_length_of_saturated (s : State) (hc : s.crcEn = true) (hl : s.run.length = 253)
    (hb : hiByte s.crc ≠ 0x00#8) : (cobsFinish (pushChecksum s)).out.length = s.out.length + 257 := by
  have hne : s.run ≠ [] := List.ne_nil_of_length_pos (by omega)
  have hempty := cobsPush_saturate s (hiByte s.crc) hb hl
  rw [pushChecksum, if_pos hc, cobsFinish_cobsPush_out_length, cobsFinish_cobsPush_out_length, cobsFinish_out_length]
  simp [hempty, hne, hl]

/-- END emits at most 258 bytes, and exactly 258 with both flags and a high checksum byte that saturates the run. -/
theorem exists_endFrame_emitted (s : State) (hl : s.run.length ≤ 253) :
    ∃ x, ((emitTerminator (cobsFinish (pushChecksum s))).setMode .idle).out = s.out ++ x ∧ x.length ≤ 258 ∧
      (s.crcEn = true → s.termEn = true → s.run.length = 253 → hiByte s.crc ≠ 0x00#8 → x.length = 258) := by
  obtain ⟨x, hx⟩ := endFrame_extends s
  have hlen := congrArg List.length hx
  simp only [State.setMode_out, emitTerminator_out, cobsFinish_termEn, pushChecksum_termEn, List.length_append] at hlen
  refine ⟨x, hx.symm, ?_, fun hc ht hr hb => ?_⟩
  · have hle := cobsFinish_pushChecksum_out_length_le s hl
    split at hlen <;> simp only [List.length_singleton, List.length_nil] at hlen <;> omega
  · have heq := cobsFinish_pushChecksum_out_length_of_saturated s hc hr hb
    rw [if_pos ht, List.length_singleton] at hlen
    omega

/-- Settles O32: by `step_word_inversion`, BYTE by the cases of its push and END by `exists_endFrame_emitted`. -/
theorem bytesEmittedPerCommand : Obligations.BytesEmittedPerCommand := by
  rintro w s rest ⟨-, hl, -⟩ hp
  induction w using word_cases with
  | h hi lo =>
  obtain ⟨c, he, e⟩ | ⟨he, ⟨rfl, e⟩ | ⟨rfl, -, -, e⟩ | ⟨rfl, -, e⟩ | ⟨rfl, -, e⟩ | ⟨rfl, e⟩⟩ :=
    step_word_inversion s hi lo rest hp
  · exact ⟨_, [], e, by simp, by simp, by simp, by simp [he], by simp [he]⟩
  · exact ⟨_, [], e, by simp, by simp, by simp, by simp, by simp⟩
  · exact ⟨_, [], e, by simp, by simp, by simp, by simp, by simp⟩
  · obtain ⟨hb, ho, -⟩ | ⟨hb, (hr : s.run.length = 253), ho, -⟩ |
        ⟨hb, (hr : s.run.length ≠ 253), ho, -⟩ :=
      cobsPush_cases ((s.setPending rest).setCrc (crcStep s.crc lo)) lo
    · exact ⟨_, _, e, ho, by simp; omega, by simp [he], fun _ _ => by simp [hb]; omega, by simp⟩
    · exact ⟨_, _, e, ho, by simp [hr], by simp [he], by simp [hb, hr], by simp⟩
    · exact ⟨_, [], e, by simpa using ho, by simp, by simp, by simp [hb, hr], by simp⟩
  · obtain ⟨x, ho, hx, hmax⟩ := exists_endFrame_emitted (s.setPending rest) hl
    refine ⟨_, x, e, ho, hx, by simp [he], by simp, fun _ _ hc ht hr hb => hmax hc ht hr fun h0 => ?_⟩
    exact hb ((shift_eq_iff s.crc 0x00#8).2 h0)
  · exact ⟨_, [], e, by simp, by simp, by simp, by simp, by simp⟩

end Sys2Proof.Machine
end
